-- ==== Sys2Proof/Word.lean ====
section
/-! DEFINITION. The word types of the machine (00_scope.md section 6, "Widths"): every value is unsigned. -/

namespace Sys2Proof

/-- A `u8`: a general register, a memory byte, a timer counter, the immediate `kk`. -/
abbrev Byte := BitVec 8

/-- A `u16`: an instruction word, `pc`, `I`, a stack slot. -/
abbrev Word := BitVec 16

/-- A `u4`: one nibble of an instruction word (30_encoding.md R61). -/
abbrev Nibble := BitVec 4

/-- A `u12`: the address field `nnn` (30_encoding.md R61). -/
abbrev Addr := BitVec 12

/-- The ordinal of a general register, always below 16 (10_state.md R10, R11). -/
abbrev Reg := Fin 16

/-- A number from `lo` to `hi`. -/
structure Size (lo hi : Nat) where
  val : Nat
  ge  : lo ≤ val
  le  : val ≤ hi
  deriving DecidableEq, Repr

/-- The ordinal of a key, always below 16 (44_keyboard.md R145). -/
abbrev Key := Fin 16

end Sys2Proof
end

