-- ==== Sys2Proof/Syntax.lean ====
section
/-! DEFINITION. The 35 instructions, one constructor per row of spec/opcode_table.json, in its order
(30_encoding.md R65). Operand shapes are those of R61 and R62; the fixed selectors `z` and `f` are no operands. -/

namespace Sys2Proof

/-- One decoded instruction. `x` and `y` are register ordinals, `kk` an 8-bit immediate, `nnn` a 12-bit
address, `n` a sprite height. -/
inductive Instr where
  /-- `00E0` CLS -/
  | cls
  /-- `00EE` RET -/
  | ret
  /-- `0nnn` SYS addr -/
  | sys (nnn : Addr)
  /-- `1nnn` JP addr -/
  | jp (nnn : Addr)
  /-- `2nnn` CALL addr -/
  | call (nnn : Addr)
  /-- `3xkk` SE Vx, kk -/
  | seImm (x : Reg) (kk : Byte)
  /-- `4xkk` SNE Vx, kk -/
  | sneImm (x : Reg) (kk : Byte)
  /-- `5xy0` SE Vx, Vy -/
  | seReg (x y : Reg)
  /-- `6xkk` LD Vx, kk -/
  | ldImm (x : Reg) (kk : Byte)
  /-- `7xkk` ADD Vx, kk -/
  | addImm (x : Reg) (kk : Byte)
  /-- `8xy0` LD Vx, Vy -/
  | ldReg (x y : Reg)
  /-- `8xy1` OR Vx, Vy -/
  | orReg (x y : Reg)
  /-- `8xy2` AND Vx, Vy -/
  | andReg (x y : Reg)
  /-- `8xy3` XOR Vx, Vy -/
  | xorReg (x y : Reg)
  /-- `8xy4` ADD Vx, Vy -/
  | addReg (x y : Reg)
  /-- `8xy5` SUB Vx, Vy -/
  | subReg (x y : Reg)
  /-- `8xy6` SHR Vx; `y` is encoded and ignored (R67) -/
  | shr (x y : Reg)
  /-- `8xy7` SUBN Vx, Vy -/
  | subnReg (x y : Reg)
  /-- `8xyE` SHL Vx; `y` is encoded and ignored (R67) -/
  | shl (x y : Reg)
  /-- `9xy0` SNE Vx, Vy -/
  | sneReg (x y : Reg)
  /-- `Annn` LD I, addr -/
  | ldI (nnn : Addr)
  /-- `Bnnn` JP V0, addr -/
  | jpV0 (nnn : Addr)
  /-- `Cxkk` RND Vx, kk -/
  | rnd (x : Reg) (kk : Byte)
  /-- `Dxyn` DRW Vx, Vy, n -/
  | drw (x y : Reg) (n : Fin 16)
  /-- `Ex9E` SKP Vx -/
  | skp (x : Reg)
  /-- `ExA1` SKNP Vx -/
  | sknp (x : Reg)
  /-- `Fx07` LD Vx, DT -/
  | ldVxDt (x : Reg)
  /-- `Fx0A` LD Vx, K -/
  | ldVxK (x : Reg)
  /-- `Fx15` LD DT, Vx -/
  | ldDtVx (x : Reg)
  /-- `Fx18` LD ST, Vx -/
  | ldStVx (x : Reg)
  /-- `Fx1E` ADD I, Vx -/
  | addI (x : Reg)
  /-- `Fx29` LD F, Vx -/
  | ldF (x : Reg)
  /-- `Fx33` LD B, Vx -/
  | ldB (x : Reg)
  /-- `Fx55` LD [I], Vx -/
  | storeRegs (x : Reg)
  /-- `Fx65` LD Vx, [I] -/
  | loadRegs (x : Reg)
  deriving DecidableEq, Repr

end Sys2Proof
end

