-- ==== Sys2Proof/WellFormed.lean ====
section
/-! DEFINITION. Which terms of `Instr` are instructions. The operand types already hold every range
(30_encoding.md R70); the one check left is that `SYS` does not claim the words of `CLS` and `RET`, which
dispatch tries first (R64). -/

namespace Sys2Proof

/-- `SYS nnn` is a word of its own unless `nnn` is that of `00E0` or `00EE` (30_encoding.md R64, R66). -/
def sysOperandOk (nnn : Addr) : Bool := nnn != 0x0E0 && nnn != 0x0EE

/-- The well-formed instructions: exactly those some word decodes to. -/
def Instr.wf : Instr → Bool
  | .sys nnn => sysOperandOk nnn
  | .cls | .ret | .jp _ | .call _ | .seImm _ _ | .sneImm _ _ | .seReg _ _ | .ldImm _ _ | .addImm _ _
  | .ldReg _ _ | .orReg _ _ | .andReg _ _ | .xorReg _ _ | .addReg _ _ | .subReg _ _ | .shr _ _
  | .subnReg _ _ | .shl _ _ | .sneReg _ _ | .ldI _ | .jpV0 _ | .rnd _ _ | .drw _ _ _ | .skp _ | .sknp _
  | .ldVxDt _ | .ldVxK _ | .ldDtVx _ | .ldStVx _ | .addI _ | .ldF _ | .ldB _ | .storeRegs _
  | .loadRegs _ => true

end Sys2Proof
end

