-- ==== Sys2Proof/Decode.lean ====
section
/-! DEFINITION. The instruction word: its fields, the decoder, the opcode map, the encoder and the assembler
syntax (30_encoding.md). The decoder is total and rejects by name. -/

namespace Sys2Proof

/-! ## Fields (R61, R72) -/

/-- `n1`, bits 15:12. -/
def nib1 (w : Word) : Nibble := w.extractLsb' 12 4
/-- `n2`, bits 11:8. -/
def nib2 (w : Word) : Nibble := w.extractLsb' 8 4
/-- `n3`, bits 7:4. -/
def nib3 (w : Word) : Nibble := w.extractLsb' 4 4
/-- `n4`, bits 3:0. -/
def nib4 (w : Word) : Nibble := w.extractLsb' 0 4
/-- `kk`, bits 7:0. -/
def fieldKk (w : Word) : Byte := w.extractLsb' 0 8
/-- `nnn`, bits 11:0. -/
def fieldNnn (w : Word) : Addr := w.extractLsb' 0 12

/-- A 4-bit selector used directly as an ordinal (R63). -/
def regOfBits (b : Nibble) : Reg := b.toFin
/-- The 4 bits of an ordinal. -/
def bitsOfReg (r : Reg) : Nibble := BitVec.ofFin r

/-- The register selector `x` (10_state.md R11). -/
def selX (w : Word) : Reg := regOfBits (nib2 w)
/-- The register selector `y` (10_state.md R11). -/
def selY (w : Word) : Reg := regOfBits (nib3 w)
/-- The sprite height `n`, an unsigned 4-bit count (R63). -/
def countN (w : Word) : Fin 16 := (nib4 w).toFin

/-- A word from its two bytes as they lie in memory, the high byte first (R60, 20_memory.md R43, R53). -/
def wordOfBytes (hi lo : Byte) : Word := hi ++ lo

/-! ## Decode (R64, R66) -/

/-- Why bytes are no instruction. -/
inductive DecodeError where
  /-- The word matches no pattern of the opcode map (R66). -/
  | illegalOpcode (w : Word)
  /-- Fewer than two bytes: an instruction is one 16-bit word (R60). -/
  | truncated
  deriving DecidableEq, Repr

/-- `dispatch(w)` of R64: the 35 patterns in order, so that `00E0` and `00EE` come before `0nnn`. -/
def decode (w : Word) : Except DecodeError Instr :=
  if w = 0x00E0 then .ok .cls
  else if w = 0x00EE then .ok .ret
  else if nib1 w = 0x0 then .ok (.sys (fieldNnn w))
  else if nib1 w = 0x1 then .ok (.jp (fieldNnn w))
  else if nib1 w = 0x2 then .ok (.call (fieldNnn w))
  else if nib1 w = 0x3 then .ok (.seImm (selX w) (fieldKk w))
  else if nib1 w = 0x4 then .ok (.sneImm (selX w) (fieldKk w))
  else if nib1 w = 0x5 ∧ nib4 w = 0x0 then .ok (.seReg (selX w) (selY w))
  else if nib1 w = 0x6 then .ok (.ldImm (selX w) (fieldKk w))
  else if nib1 w = 0x7 then .ok (.addImm (selX w) (fieldKk w))
  else if nib1 w = 0x8 ∧ nib4 w = 0x0 then .ok (.ldReg (selX w) (selY w))
  else if nib1 w = 0x8 ∧ nib4 w = 0x1 then .ok (.orReg (selX w) (selY w))
  else if nib1 w = 0x8 ∧ nib4 w = 0x2 then .ok (.andReg (selX w) (selY w))
  else if nib1 w = 0x8 ∧ nib4 w = 0x3 then .ok (.xorReg (selX w) (selY w))
  else if nib1 w = 0x8 ∧ nib4 w = 0x4 then .ok (.addReg (selX w) (selY w))
  else if nib1 w = 0x8 ∧ nib4 w = 0x5 then .ok (.subReg (selX w) (selY w))
  else if nib1 w = 0x8 ∧ nib4 w = 0x6 then .ok (.shr (selX w) (selY w))
  else if nib1 w = 0x8 ∧ nib4 w = 0x7 then .ok (.subnReg (selX w) (selY w))
  else if nib1 w = 0x8 ∧ nib4 w = 0xE then .ok (.shl (selX w) (selY w))
  else if nib1 w = 0x9 ∧ nib4 w = 0x0 then .ok (.sneReg (selX w) (selY w))
  else if nib1 w = 0xA then .ok (.ldI (fieldNnn w))
  else if nib1 w = 0xB then .ok (.jpV0 (fieldNnn w))
  else if nib1 w = 0xC then .ok (.rnd (selX w) (fieldKk w))
  else if nib1 w = 0xD then .ok (.drw (selX w) (selY w) (countN w))
  else if nib1 w = 0xE ∧ fieldKk w = 0x9E then .ok (.skp (selX w))
  else if nib1 w = 0xE ∧ fieldKk w = 0xA1 then .ok (.sknp (selX w))
  else if nib1 w = 0xF ∧ fieldKk w = 0x07 then .ok (.ldVxDt (selX w))
  else if nib1 w = 0xF ∧ fieldKk w = 0x0A then .ok (.ldVxK (selX w))
  else if nib1 w = 0xF ∧ fieldKk w = 0x15 then .ok (.ldDtVx (selX w))
  else if nib1 w = 0xF ∧ fieldKk w = 0x18 then .ok (.ldStVx (selX w))
  else if nib1 w = 0xF ∧ fieldKk w = 0x1E then .ok (.addI (selX w))
  else if nib1 w = 0xF ∧ fieldKk w = 0x29 then .ok (.ldF (selX w))
  else if nib1 w = 0xF ∧ fieldKk w = 0x33 then .ok (.ldB (selX w))
  else if nib1 w = 0xF ∧ fieldKk w = 0x55 then .ok (.storeRegs (selX w))
  else if nib1 w = 0xF ∧ fieldKk w = 0x65 then .ok (.loadRegs (selX w))
  else .error (.illegalOpcode w)

/-- The decoder on a byte string: one instruction and the rest, or a rejection by name. -/
def decodeBytes : List Byte → Except DecodeError (Instr × List Byte)
  | hi :: lo :: rest =>
    match decode (wordOfBytes hi lo) with
    | .ok i => .ok (i, rest)
    | .error e => .error e
  | [] | [_] => .error .truncated

/-- The two bytes of a table word as the hardware stores them, the high byte at the lower address
(20_memory.md R53); the bits above `nbits` are zero. -/
def tableWordBytes (nbits w : Nat) : Byte × Byte :=
  let v := w % 2 ^ nbits
  (BitVec.ofNat 8 (v / 256), BitVec.ofNat 8 v)

/-- The instruction the decoder reads from a table word laid out in memory. -/
def decodeTableWord (nbits w : Nat) : Option Instr :=
  match decodeBytes [(tableWordBytes nbits w).1, (tableWordBytes nbits w).2] with
  | .ok (i, _) => some i
  | .error _ => none

/-! ## Encode (R62, R65) -/

/-- Format `NNN`: `n1 nnn`. -/
def wordNNN (a : Nibble) (nnn : Addr) : Word := a ++ nnn
/-- Formats `XKK` and `X`: `n1 x kk`. -/
def wordXKK (a : Nibble) (x : Reg) (kk : Byte) : Word := a ++ bitsOfReg x ++ kk
/-- Formats `XY` and `XYN`: `n1 x y n4`. -/
def wordXYN (a : Nibble) (x y : Reg) (n : Nibble) : Word := a ++ bitsOfReg x ++ bitsOfReg y ++ n

/-- The word of an instruction (30_encoding.md R62, R65). -/
def encode : Instr → Word
  | .cls => 0x00E0
  | .ret => 0x00EE
  | .sys nnn => wordNNN 0x0 nnn
  | .jp nnn => wordNNN 0x1 nnn
  | .call nnn => wordNNN 0x2 nnn
  | .seImm x kk => wordXKK 0x3 x kk
  | .sneImm x kk => wordXKK 0x4 x kk
  | .seReg x y => wordXYN 0x5 x y 0x0
  | .ldImm x kk => wordXKK 0x6 x kk
  | .addImm x kk => wordXKK 0x7 x kk
  | .ldReg x y => wordXYN 0x8 x y 0x0
  | .orReg x y => wordXYN 0x8 x y 0x1
  | .andReg x y => wordXYN 0x8 x y 0x2
  | .xorReg x y => wordXYN 0x8 x y 0x3
  | .addReg x y => wordXYN 0x8 x y 0x4
  | .subReg x y => wordXYN 0x8 x y 0x5
  | .shr x y => wordXYN 0x8 x y 0x6
  | .subnReg x y => wordXYN 0x8 x y 0x7
  | .shl x y => wordXYN 0x8 x y 0xE
  | .sneReg x y => wordXYN 0x9 x y 0x0
  | .ldI nnn => wordNNN 0xA nnn
  | .jpV0 nnn => wordNNN 0xB nnn
  | .rnd x kk => wordXKK 0xC x kk
  | .drw x y n => wordXYN 0xD x y (BitVec.ofFin n)
  | .skp x => wordXKK 0xE x 0x9E
  | .sknp x => wordXKK 0xE x 0xA1
  | .ldVxDt x => wordXKK 0xF x 0x07
  | .ldVxK x => wordXKK 0xF x 0x0A
  | .ldDtVx x => wordXKK 0xF x 0x15
  | .ldStVx x => wordXKK 0xF x 0x18
  | .addI x => wordXKK 0xF x 0x1E
  | .ldF x => wordXKK 0xF x 0x29
  | .ldB x => wordXKK 0xF x 0x33
  | .storeRegs x => wordXKK 0xF x 0x55
  | .loadRegs x => wordXKK 0xF x 0x65

/-- The two bytes of an instruction as they lie in memory (R60). -/
def encodeBytes (i : Instr) : List Byte := [(encode i).extractLsb' 8 8, (encode i).extractLsb' 0 8]

/-! ## The opcode map (R65) and the assembler syntax (R68) -/

/-- One row of the opcode map: the pattern, its mask and match words. -/
structure OpcodeRow where
  pattern : String
  mask    : Word
  value   : Word
  deriving DecidableEq, Repr

/-- `w & mask == match` selects the row. -/
def OpcodeRow.selects (r : OpcodeRow) (w : Word) : Bool := w &&& r.mask == r.value

/-- Rows 1 to 20 of R65. -/
def opcodeRowsLow : List OpcodeRow :=
  [⟨"00E0", 0xFFFF, 0x00E0⟩, ⟨"00EE", 0xFFFF, 0x00EE⟩, ⟨"0nnn", 0xF000, 0x0000⟩, ⟨"1nnn", 0xF000, 0x1000⟩,
   ⟨"2nnn", 0xF000, 0x2000⟩, ⟨"3xkk", 0xF000, 0x3000⟩, ⟨"4xkk", 0xF000, 0x4000⟩, ⟨"5xy0", 0xF00F, 0x5000⟩,
   ⟨"6xkk", 0xF000, 0x6000⟩, ⟨"7xkk", 0xF000, 0x7000⟩, ⟨"8xy0", 0xF00F, 0x8000⟩, ⟨"8xy1", 0xF00F, 0x8001⟩,
   ⟨"8xy2", 0xF00F, 0x8002⟩, ⟨"8xy3", 0xF00F, 0x8003⟩, ⟨"8xy4", 0xF00F, 0x8004⟩, ⟨"8xy5", 0xF00F, 0x8005⟩,
   ⟨"8xy6", 0xF00F, 0x8006⟩, ⟨"8xy7", 0xF00F, 0x8007⟩, ⟨"8xyE", 0xF00F, 0x800E⟩, ⟨"9xy0", 0xF00F, 0x9000⟩]

/-- Rows 21 to 35 of R65. -/
def opcodeRowsHigh : List OpcodeRow :=
  [⟨"Annn", 0xF000, 0xA000⟩, ⟨"Bnnn", 0xF000, 0xB000⟩, ⟨"Cxkk", 0xF000, 0xC000⟩, ⟨"Dxyn", 0xF000, 0xD000⟩,
   ⟨"Ex9E", 0xF0FF, 0xE09E⟩, ⟨"ExA1", 0xF0FF, 0xE0A1⟩, ⟨"Fx07", 0xF0FF, 0xF007⟩, ⟨"Fx0A", 0xF0FF, 0xF00A⟩,
   ⟨"Fx15", 0xF0FF, 0xF015⟩, ⟨"Fx18", 0xF0FF, 0xF018⟩, ⟨"Fx1E", 0xF0FF, 0xF01E⟩, ⟨"Fx29", 0xF0FF, 0xF029⟩,
   ⟨"Fx33", 0xF0FF, 0xF033⟩, ⟨"Fx55", 0xF0FF, 0xF055⟩, ⟨"Fx65", 0xF0FF, 0xF065⟩]

/-- The opcode map of R65, in the document's order, which is the order of dispatch. -/
def opcodeMap : List OpcodeRow := opcodeRowsLow ++ opcodeRowsHigh

/-- The opcode pattern of an instruction, the unambiguous name R68 uses. -/
def patternOf : Instr → String
  | .cls => "00E0" | .ret => "00EE" | .sys _ => "0nnn" | .jp _ => "1nnn" | .call _ => "2nnn"
  | .seImm _ _ => "3xkk" | .sneImm _ _ => "4xkk" | .seReg _ _ => "5xy0" | .ldImm _ _ => "6xkk"
  | .addImm _ _ => "7xkk" | .ldReg _ _ => "8xy0" | .orReg _ _ => "8xy1" | .andReg _ _ => "8xy2"
  | .xorReg _ _ => "8xy3" | .addReg _ _ => "8xy4" | .subReg _ _ => "8xy5" | .shr _ _ => "8xy6"
  | .subnReg _ _ => "8xy7" | .shl _ _ => "8xyE" | .sneReg _ _ => "9xy0" | .ldI _ => "Annn"
  | .jpV0 _ => "Bnnn" | .rnd _ _ => "Cxkk" | .drw _ _ _ => "Dxyn" | .skp _ => "Ex9E" | .sknp _ => "ExA1"
  | .ldVxDt _ => "Fx07" | .ldVxK _ => "Fx0A" | .ldDtVx _ => "Fx15" | .ldStVx _ => "Fx18" | .addI _ => "Fx1E"
  | .ldF _ => "Fx29" | .ldB _ => "Fx33" | .storeRegs _ => "Fx55" | .loadRegs _ => "Fx65"

/-- The pattern of the instruction a word decodes to, if it is one. -/
def decodedPattern (w : Word) : Option String :=
  match decode w with
  | .ok i => some (patternOf i)
  | .error _ => none

/-- The pattern of the first row of the opcode map that a word matches, if there is one. -/
def firstMatchingPattern (w : Word) : Option String :=
  (opcodeMap.find? (fun r => r.selects w)).map (fun r => r.pattern)

/-- One hexadecimal digit. -/
def hexDigit (n : Nat) : Char := ['0', '1', '2', '3', '4', '5', '6', '7', '8', '9', 'A', 'B', 'C', 'D', 'E', 'F'].getD n '?'

/-- A number of `digits` hexadecimal digits. -/
def hexDigits : Nat → Nat → List Char
  | 0, _ => []
  | d + 1, n => hexDigits d (n / 16) ++ [hexDigit (n % 16)]

/-- A number as R68 writes it: hexadecimal with `0x`. -/
def hexNumber (digits n : Nat) : String := "0x" ++ String.ofList (hexDigits digits n)

/-- A register name: `V` and one hexadecimal digit (R68). -/
def regName (r : Reg) : String := "V" ++ String.ofList [hexDigit r.val]

/-- The assembler syntax of R68 (decision D23; log 27). -/
def assembly : Instr → String
  | .cls => "CLS"
  | .ret => "RET"
  | .sys nnn => "SYS " ++ hexNumber 3 nnn.toNat
  | .jp nnn => "JP " ++ hexNumber 3 nnn.toNat
  | .call nnn => "CALL " ++ hexNumber 3 nnn.toNat
  | .seImm x kk => "SE " ++ regName x ++ ", " ++ hexNumber 2 kk.toNat
  | .sneImm x kk => "SNE " ++ regName x ++ ", " ++ hexNumber 2 kk.toNat
  | .seReg x y => "SE " ++ regName x ++ ", " ++ regName y
  | .ldImm x kk => "LD " ++ regName x ++ ", " ++ hexNumber 2 kk.toNat
  | .addImm x kk => "ADD " ++ regName x ++ ", " ++ hexNumber 2 kk.toNat
  | .ldReg x y => "LD " ++ regName x ++ ", " ++ regName y
  | .orReg x y => "OR " ++ regName x ++ ", " ++ regName y
  | .andReg x y => "AND " ++ regName x ++ ", " ++ regName y
  | .xorReg x y => "XOR " ++ regName x ++ ", " ++ regName y
  | .addReg x y => "ADD " ++ regName x ++ ", " ++ regName y
  | .subReg x y => "SUB " ++ regName x ++ ", " ++ regName y
  | .shr x _ => "SHR " ++ regName x
  | .subnReg x y => "SUBN " ++ regName x ++ ", " ++ regName y
  | .shl x _ => "SHL " ++ regName x
  | .sneReg x y => "SNE " ++ regName x ++ ", " ++ regName y
  | .ldI nnn => "LD I, " ++ hexNumber 3 nnn.toNat
  | .jpV0 nnn => "JP V0, " ++ hexNumber 3 nnn.toNat
  | .rnd x kk => "RND " ++ regName x ++ ", " ++ hexNumber 2 kk.toNat
  | .drw x y n => "DRW " ++ regName x ++ ", " ++ regName y ++ ", " ++ hexNumber 1 n.val
  | .skp x => "SKP " ++ regName x
  | .sknp x => "SKNP " ++ regName x
  | .ldVxDt x => "LD " ++ regName x ++ ", DT"
  | .ldVxK x => "LD " ++ regName x ++ ", K"
  | .ldDtVx x => "LD DT, " ++ regName x
  | .ldStVx x => "LD ST, " ++ regName x
  | .addI x => "ADD I, " ++ regName x
  | .ldF x => "LD F, " ++ regName x
  | .ldB x => "LD B, " ++ regName x
  | .storeRegs x => "LD [I], " ++ regName x
  | .loadRegs x => "LD " ++ regName x ++ ", [I]"

end Sys2Proof
end

