-- ==== Sys2Proof/Config.lean ====
section
/-! DEFINITION. What an implementation fixes (00_scope.md R3, R4) and the values the spec leaves free. The values of this
hardware stand in Machine/Font.lean. -/

namespace Sys2Proof

/-- The two legal values of `SPRITE_COLS`, the columns drawn per sprite row (43_display.md R135). -/
inductive SpriteCols where
  | seven
  | eight
  deriving DecidableEq, Repr

/-- `FONT`: the 80 bytes of sixteen glyphs (20_memory.md R50). -/
abbrev Font := Vector Byte 80

/-- The parameters of 00_scope.md R4 that have a value, one field each, fixed for the life of a machine. The values of
this hardware are `Machine.hardware` (Machine/Font.lean). The ranges other machines may take are the model's own (log 30);
the storage of `State` is that of the largest. The open parameters are the opaque constants below and the arguments of
the audio relations (logs 16, 17). -/
structure Config where
  /-- `MEM_SIZE` (20_memory.md R40, decision D1; log 6). -/
  memSize     : Nat
  /-- `PROG_BASE`: the load offset of the ROM image and the reset value of `pc` (R3). -/
  progBase    : Addr
  /-- `FONT_BASE`: the address of glyph 0, with `FONT_BASE + 80 <= 0x200` (20_memory.md R49, decision D3; log 7). -/
  fontBase    : Size 0 0x1B0
  /-- `GLYPH_STRIDE`: bytes from one glyph to the next (20_memory.md R49, decision D3; log 7). -/
  glyphStride : Size 0 255
  /-- `FONT` (decision D4; log 8). -/
  font        : Font
  /-- `SPRITE_COLS` (43_display.md R135, decision D7; log 11). -/
  spriteCols  : SpriteCols
  /-- `SOUND_TIED` (60_exceptions.md R177, decision D8; log 11). -/
  soundTied   : Bool
  /-- `STACK_DEPTH` (R3, 10_state.md R22). -/
  stackDepth  : Size 1 16
  /-- `DISPLAY_W` (R3, 43_display.md R130). -/
  displayW    : Size 8 64
  /-- `DISPLAY_H` (R3, 43_display.md R130). -/
  displayH    : Size 16 32
  deriving DecidableEq, Repr

namespace Config

/-- FREE VALUE (log 1): the byte the random source hands to the `k`-th draw. Nothing constrains it
(10_state.md R25, 60_exceptions.md R182). -/
opaque drawByte : Nat → Byte

/-- OPEN PARAMETER (log 16): one less than `SAMPLE_FREQUENCY`, so that the frequency is a positive integer
and nothing else is known of it (60_exceptions.md R180, decision D13). -/
opaque sampleFrequencyLessOne : Nat

/-- `SAMPLE_FREQUENCY`, a positive integer number of samples per second (60_exceptions.md R180). -/
def sampleFrequency : Nat := sampleFrequencyLessOne + 1

end Config

end Sys2Proof
end

