-- ==== Sys2Proof/Machine/Font.lean ====
section
/-! DEFINITION. The parameters of this hardware, its font among them (00_scope.md R4, 20_memory.md R50), where glyphs
lie, and what memory holds before the ROM is loaded (20_memory.md R48, R49). -/

namespace Sys2Proof.Machine

/-- Glyphs 0 to 7 of the conventional font (20_memory.md R50; PRESUMED, log 8). -/
def fontLow : List Byte :=
  [0xF0, 0x90, 0x90, 0x90, 0xF0, 0x20, 0x60, 0x20, 0x20, 0x70, 0xF0, 0x10, 0xF0, 0x80, 0xF0,
   0xF0, 0x10, 0xF0, 0x10, 0xF0, 0x90, 0x90, 0xF0, 0x10, 0x10, 0xF0, 0x80, 0xF0, 0x10, 0xF0,
   0xF0, 0x80, 0xF0, 0x90, 0xF0, 0xF0, 0x10, 0x20, 0x40, 0x40]

/-- Glyphs 8 to F of the conventional font (20_memory.md R50; PRESUMED, log 8). -/
def fontHigh : List Byte :=
  [0xF0, 0x90, 0xF0, 0x90, 0xF0, 0xF0, 0x90, 0xF0, 0x10, 0xF0, 0xF0, 0x90, 0xF0, 0x90, 0x90,
   0xE0, 0x90, 0xE0, 0x90, 0xE0, 0xF0, 0x80, 0x80, 0x80, 0xF0, 0xE0, 0x90, 0x90, 0x90, 0xE0,
   0xF0, 0x80, 0xF0, 0x80, 0xF0, 0xF0, 0x80, 0xF0, 0x80, 0x80]

/-- The conventional font, the value of `FONT` for this hardware (20_memory.md R50, decision D4; log 8). -/
def conventionalFont : Font := ⟨(fontLow ++ fontHigh).toArray, rfl⟩

/-- The hardware specified here: the value column of 00_scope.md R4. -/
def hardware : Config where
  memSize     := 4096
  progBase    := 0x200
  fontBase    := ⟨0x000, by decide, by decide⟩
  glyphStride := ⟨5, by decide, by decide⟩
  font        := conventionalFont
  spriteCols  := .seven
  soundTied   := true
  stackDepth  := ⟨16, by decide, by decide⟩
  displayW    := ⟨64, by decide, by decide⟩
  displayH    := ⟨32, by decide, by decide⟩

/-- `glyph_address(d)`, for a digit `d` of 0..15 (20_memory.md R49). -/
def glyphAddress (c : Config) (d : Nat) : Nat := c.fontBase.val + c.glyphStride.val * d

/-- What an address holds at reset before the ROM is copied: the font, else zero (20_memory.md R48). It is what an
unlisted address of memory reads as. -/
def resetByte (c : Config) (a : Nat) : Byte :=
  if c.fontBase.val ≤ a then c.font.toList.getD (a - c.fontBase.val) 0 else 0

end Sys2Proof.Machine
end

