-- ==== Sys2Proof/Machine/State.lean ====
section
/-! DEFINITION. Everything the spec gives the machine, as plain data (10_state.md), and the reasons a step stops. -/

namespace Sys2Proof.Machine

/-- A key is `Pressed` or `Released` (44_keyboard.md R145). -/
inductive KeyState where
  | released
  | pressed
  deriving DecidableEq, Repr

/-- A pixel is `Off` or `On` (43_display.md R130). -/
inductive Pixel where
  | off
  | on
  deriving DecidableEq, Repr

/-- The status latch (10_state.md R24). -/
inductive Status where
  | running
  | aborted
  deriving DecidableEq, Repr

/-- Memory as the bytes that differ from the reset contents of the machine, addresses strictly rising (log 19). -/
abbrev Memory := List Host.Cell

/-- `PIX[y][x]`: 32 rows of 64 pixels (43_display.md R130); a smaller display uses its top left part (log 30). -/
abbrev Display := Vector (Vector Pixel 64) 32

/-- The state of the machine (10_state.md R27), with its fixed configuration and the model's own draw counter. -/
structure State where
  /-- `V[0..15]` (R10); `V[15]` is `VF` (R17). -/
  v      : Vector Byte 16
  /-- The program counter (R13). -/
  pc     : Word
  /-- The index register `I` (R18). -/
  index  : Word
  /-- The stack write index `SP`, 0..16 (R19). -/
  sp     : Fin 17
  /-- The stack slots `STK[0..15]` (R22); a shallower stack uses the first of them (log 30). -/
  stk    : Vector Word 16
  /-- The delay counter `DT` (R20). -/
  dt     : Byte
  /-- The sound counter `ST` (R20). -/
  st     : Byte
  /-- `PHASE`, held as the count of advances since reset (R21, 60_exceptions.md R180; log 17). -/
  phase  : Nat
  /-- `KEY[0..15]` (R23). -/
  key    : Vector KeyState 16
  /-- `PIX` (R23). -/
  pix    : Display
  /-- `MEM` (R23). -/
  mem    : Memory
  /-- `STATUS` (R24). -/
  status : Status
  /-- The parameters of 00_scope.md R4, fixed for the life of the machine (logs 11, 30). -/
  config : Config
  /-- THE MODEL'S OWN: how many random bytes have been drawn (log 1). -/
  draws  : Nat
  deriving DecidableEq, Repr

/-- The causes of an abort, a closed list (60_exceptions.md R160, R168). Each is SAFE: the machine itself is
dead after it, and where the real core might go on (R164 to R167) a true claim may become unprovable. -/
inductive Fault where
  /-- Code 1, R161: raised by the dispatcher; the word and the instruction's own address. Safe. -/
  | illegalOpcode (w : Word) (a : Word)
  /-- Code 2, R162: raised by `2nnn` with `SP` = `STACK_DEPTH`; the value that could not be pushed. Safe. -/
  | stackOverflow (v : Word)
  /-- Code 3, R163: raised by `00EE` with `SP` = 0. Safe. -/
  | stackUnderflow
  /-- Code 4, R164: raised by the fetch, `Dxyn`, `Fx33`, `Fx55`, `Fx65`; the first offending address. Safe (log 6). -/
  | memOutOfRange (addr : Nat)
  /-- Code 5, R165: raised by `Ex9E`, `ExA1` with `V[x]` above 15; the value. Safe (log 10). -/
  | keyOutOfRange (k : Byte)
  /-- Code 6, R166: raised by `Fx29` with `V[x]` above 15; the value. Safe (log 9). -/
  | glyphOutOfRange (d : Byte)
  /-- Code 7, R167: raised by `RESET` on a ROM that does not fit; its length. Safe (log 14). -/
  | romTooLarge (len : Nat)
  deriving DecidableEq, Repr

/-- Why there is no step at all. -/
inductive Refusal where
  /-- An instruction with no meaning yet; no arm of `exec` raises it now. Safe. -/
  | notModelled (mnemonic : String)
  /-- An aborted machine accepts no transaction (60_exceptions.md R170, decision D28; log 3). Safe. -/
  | machineAborted
  deriving DecidableEq, Repr

/-- The machine after `RESET` of the empty ROM (10_state.md R28, 70_reset_and_hazards.md R190, R191): memory
lists nothing, so it reads as font and zeros. -/
def State.reset : State where
  v      := Vector.replicate 16 0
  pc     := hardware.progBase.setWidth 16
  index  := 0
  sp     := 0
  stk    := Vector.replicate 16 0
  dt     := 0
  st     := 0
  phase  := 0
  key    := Vector.replicate 16 .released
  pix    := Vector.replicate 32 (Vector.replicate 64 .off)
  mem    := []
  status := .running
  config := hardware
  draws  := 0

end Sys2Proof.Machine
end

