-- ==== Sys2Proof/Machine/Ops.lean ====
section
/-! DEFINITION. The named operations: raising an abort, the field updates, memory, the stack, the program counter,
the random draw and the fetch. Every read and write of the state goes through them. -/

namespace Sys2Proof.Machine

/-- What a step ends in. -/
abbrev Result := Host.Outcome State Fault Refusal

/-! ## Taking an exception -/

/-- `raise Abort(cause, info)`, the machine's one exception entry (60_exceptions.md R160, R169). There is no handler,
no vector, no saved `pc` and no mode change: the outcome carries the cause and no state (log 2). There is NO return from
an abort and no instruction for one (R170); the way on is a new `RESET`, `Machine.resetRom`. -/
def abort (cause : Fault) : Result := .fault cause

/-- An operation that may abort, as the outcome of an instruction. -/
def finish : Except Fault State → Result
  | .ok s => .next s
  | .error cause => abort cause

/-- The cause codes (60_exceptions.md R168). -/
def causeCode : Fault → Nat
  | .illegalOpcode _ _ => 1
  | .stackOverflow _ => 2
  | .stackUnderflow => 3
  | .memOutOfRange _ => 4
  | .keyOutOfRange _ => 5
  | .glyphOutOfRange _ => 6
  | .romTooLarge _ => 7

/-! ## Field updates -/

/-- `V[r] <- b` (10_state.md R10: no register is hardwired). -/
def State.setReg (s : State) (r : Reg) (b : Byte) : State := { s with v := s.v.set r.val b }
/-- `V[0..15] <- v`. -/
def State.setRegs (s : State) (v : Vector Byte 16) : State := { s with v := v }
/-- `pc <- t`. -/
def State.setPc (s : State) (t : Word) : State := { s with pc := t }
/-- `I <- t`. -/
def State.setIndex (s : State) (t : Word) : State := { s with index := t }
/-- `SP` and `STK` together. -/
def State.setStack (s : State) (sp : Fin 17) (stk : Vector Word 16) : State := { s with sp := sp, stk := stk }
/-- `DT <- b`. -/
def State.setDt (s : State) (b : Byte) : State := { s with dt := b }
/-- `ST <- b`. -/
def State.setSt (s : State) (b : Byte) : State := { s with st := b }
/-- The phase count. -/
def State.setPhase (s : State) (q : Nat) : State := { s with phase := q }
/-- `KEY[k] <- p`. -/
def State.setKey (s : State) (k : Key) (p : KeyState) : State := { s with key := s.key.set k.val p }
/-- `PIX <- d`. -/
def State.setPix (s : State) (d : Display) : State := { s with pix := d }
/-- `MEM <- m`. -/
def State.setMem (s : State) (m : Memory) : State := { s with mem := m }
/-- `STATUS <- x`. -/
def State.setStatus (s : State) (x : Status) : State := { s with status := x }
/-- The draw counter. -/
def State.setDraws (s : State) (k : Nat) : State := { s with draws := k }

/-! ## Memory (20_memory.md) -/

/-- What the memory holds at an address: the listed byte, else the reset contents. -/
def Memory.lookup (c : Config) : Memory → Nat → Byte
  | [], a => resetByte c a
  | (k, b) :: rest, a => if k = a then b else Memory.lookup c rest a

/-- The memory without an entry for an address. -/
def Memory.erase (m : Memory) (a : Nat) : Memory := m.filter (fun c => c.1 != a)

/-- Put an entry for an unlisted address in its place. -/
def Memory.insert : Memory → Nat → Byte → Memory
  | [], a, b => [(a, b)]
  | (k, x) :: rest, a, b => if a < k then (a, b) :: (k, x) :: rest else (k, x) :: Memory.insert rest a b

/-- `MEM[a] <- b` on the list: a byte equal to the reset contents is not listed. -/
def Memory.store (c : Config) (m : Memory) (a : Nat) (b : Byte) : Memory :=
  if b = resetByte c a then Memory.erase m a else Memory.insert (Memory.erase m a) a b

/-- The canonical form: addresses strictly rising and inside memory, no entry equal to the reset contents. -/
abbrev Memory.wf (c : Config) (m : Memory) : Prop :=
  m.Pairwise (fun x y => x.1 < y.1) ∧ ∀ x ∈ m, x.1 < c.memSize ∧ x.2 ≠ resetByte c x.1

/-- `MemRead(addr, 1)` (R41, R45). -/
def readByte (c : Config) (m : Memory) (a : Nat) : Except Fault Byte :=
  if a < c.memSize then .ok (Memory.lookup c m a) else .error (.memOutOfRange a)

/-- `MemWrite(addr, 1, b)` (R42, R45). -/
def writeByte (c : Config) (m : Memory) (a : Nat) (b : Byte) : Except Fault Memory :=
  if a < c.memSize then .ok (Memory.store c m a b) else .error (.memOutOfRange a)

/-- `MemRead(addr, 2)`: big-endian, both bytes in range, the first offending address reported (R43, R45). -/
def readWord (c : Config) (m : Memory) (a : Nat) : Except Fault Word :=
  match readByte c m a with
  | .error e => .error e
  | .ok hi =>
    match readByte c m (a + 1) with
    | .error e => .error e
    | .ok lo => .ok (wordOfBytes hi lo)

/-- `n` byte reads from `a` up, in ascending order, stopping at the first bad address: the bytes read, and the abort if
there is one (R56, R57). -/
def readUpTo (c : Config) (m : Memory) : Nat → Nat → List Byte × Option Fault
  | _, 0 => ([], none)
  | a, n + 1 =>
    match readByte c m a with
    | .error e => ([], some e)
    | .ok b => (b :: (readUpTo c m (a + 1) n).1, (readUpTo c m (a + 1) n).2)

/-- Byte writes from `a` up, in ascending order, stopping at the first bad address: the memory with the bytes stored so
far, and the abort if there is one (R56, R57). -/
def writeUpTo (c : Config) (m : Memory) : Nat → List Byte → Memory × Option Fault
  | _, [] => (m, none)
  | a, b :: bs =>
    match writeByte c m a b with
    | .error e => (m, some e)
    | .ok m' => writeUpTo c m' (a + 1) bs

/-- The result of a loop that may have stopped at an abort. -/
def unlessAborted {α : Type} : α × Option Fault → Except Fault α
  | (r, none) => .ok r
  | (_, some e) => .error e

/-- The bytes of an access that completes, or its abort. -/
def readBytes (c : Config) (m : Memory) (a n : Nat) : Except Fault (List Byte) := unlessAborted (readUpTo c m a n)

/-- The memory after an access that completes, or its abort. -/
def writeBytes (c : Config) (m : Memory) (a : Nat) (bs : List Byte) : Except Fault Memory :=
  unlessAborted (writeUpTo c m a bs)

/-- The byte a machine reads at an address. -/
abbrev State.byteAt (s : State) (a : Nat) : Except Fault Byte := readByte s.config s.mem a

/-- The word a machine reads at an address. -/
abbrev State.wordAt (s : State) (a : Nat) : Except Fault Word := readWord s.config s.mem a

/-- The ROM image copied verbatim from `a` up (R48); the caller has checked that it fits, so the order of the
writes does not show (70_reset_and_hazards.md R191). -/
def loadImage (c : Config) (m : Memory) : Nat → List Byte → Memory
  | _, [] => m
  | a, b :: bs => Memory.store c (loadImage c m (a + 1) bs) a b

/-! ## The stack (40_flow.md) -/

/-- `push(v)` (R80): the check comes first. -/
def push (v : Word) (s : State) : Except Fault State :=
  if h : s.sp.val < s.config.stackDepth.val then
    .ok (s.setStack ⟨s.sp.val + 1, Nat.succ_lt_succ (Nat.lt_of_lt_of_le h s.config.stackDepth.le)⟩
      (s.stk.set s.sp.val v (Nat.lt_of_lt_of_le h s.config.stackDepth.le)))
  else .error (.stackOverflow v)

/-- `pull()` (R81): the value at the new index; the slot is not cleared. -/
def pull (s : State) : Except Fault (Word × State) :=
  if 0 < s.sp.val then
    .ok (s.stk[s.sp.val - 1], s.setStack ⟨s.sp.val - 1, by omega⟩ s.stk)
  else .error .stackUnderflow

/-! ## The program counter, the random source, the fetch -/

/-- The fetch advance, before dispatch (10_state.md R14). -/
def advance (s : State) : State := s.setPc (s.pc + 2)

/-- `skip` when the condition holds (40_flow.md R82). -/
def skipIf (c : Bool) (s : State) : State := if c then s.setPc (s.pc + 2) else s

/-- The rewind of `Fx0A` (44_keyboard.md R150). -/
def rewind (s : State) : State := s.setPc (s.pc - 2)

/-- `draw_u8()`: a free byte (10_state.md R25; log 1). -/
def draw (s : State) : Byte × State := (Config.drawByte s.draws, s.setDraws (s.draws + 1))

/-- The fetch (10_state.md R14): the word at `pc`, or the abort of an address outside memory. -/
def fetch (s : State) : Except Fault Word := s.wordAt s.pc.toNat

end Sys2Proof.Machine
end

