-- ==== Sys2Proof/Machine/Operands.lean ====
section
/-! DEFINITION. Every operand form: register selectors, immediates, the one addressing mode, and the two operands
whose domain is 0..15 while the register holds 0..255 (30_encoding.md R63, R70; 90_conflicts.md C2). -/

namespace Sys2Proof.Machine

/-- `V[r]` (10_state.md R10). -/
def State.reg (s : State) (r : Reg) : Byte := s.v[r.val]

/-- The fixed selector `f`: `VF` (10_state.md R11). -/
def flagReg : Reg := 15

/-- The fixed selector `z`: `V0` (10_state.md R11). -/
def zeroReg : Reg := 0

/-- `zext_16(nnn)` (30_encoding.md R63). -/
def zextAddr (nnn : Addr) : Word := nnn.setWidth 16

/-- `zext_16(b)` of a register. -/
def zextByte (b : Byte) : Word := b.setWidth 16

/-- The effective address of byte `k` of an access: the unbounded sum `I + k` (20_memory.md R56, 42_index_memory.md R127). -/
def effAddr (s : State) (k : Nat) : Nat := s.index.toNat + k

/-- `V[0]` to `V[x]`, in ascending order (42_index_memory.md R124). -/
def regsUpTo (s : State) (x : Reg) : List Byte := s.v.toList.take (x.val + 1)

/-- Registers loaded from `V[k]` up, in ascending order (42_index_memory.md R125). -/
def loadRegsFrom (v : Vector Byte 16) : Nat → List Byte → Vector Byte 16
  | _, [] => v
  | k, b :: bs => loadRegsFrom (v.setIfInBounds k b) (k + 1) bs

/-- The key number `V[x]`, the whole of it, or the abort (44_keyboard.md R148, decision D6). -/
def keyOperand (b : Byte) : Except Fault Key :=
  if h : b.toNat < 16 then .ok ⟨b.toNat, h⟩ else .error (.keyOutOfRange b)

/-- The glyph digit `V[x]`, or the abort (42_index_memory.md R122, decision D5). -/
def glyphOperand (b : Byte) : Except Fault Nat :=
  if b.toNat < 16 then .ok b.toNat else .error (.glyphOutOfRange b)

/-- The decimal digits of a register: hundreds, tens, ones (42_index_memory.md R123). -/
def bcdDigits (b : Byte) : List Byte :=
  [BitVec.ofNat 8 (b.toNat / 100), BitVec.ofNat 8 (b.toNat / 10 % 10), BitVec.ofNat 8 (b.toNat % 10)]

end Sys2Proof.Machine
end

