-- ==== Sys2Proof/Machine/Flags.lean ====
section
/-! DEFINITION. The six computations of `VF` (10_state.md R17, 41_alu.md R115). -/

namespace Sys2Proof.Machine

/-- A condition as the byte written to `VF`: 1 or 0. -/
def flagByte (c : Bool) : Byte := if c then 1 else 0

/-- `VF <- b`. -/
def State.setFlag (s : State) (b : Byte) : State := s.setReg flagReg b

/-- `8xy4`: the unbounded sum exceeds 255 (R115). -/
def carries (a b : Byte) : Bool := 255 < a.toNat + b.toNat

/-- `8xy5`, `8xy7`: `a - b` is negative, a borrow (R115); 1 means borrow. -/
def borrows (a b : Byte) : Bool := a.toNat < b.toNat

/-- `8xy6`: the bit shifted out at the right (R108). -/
def lowBit (a : Byte) : Byte := a &&& 1

/-- `8xyE`: the bit shifted out at the left (R110). -/
def highBit (a : Byte) : Byte := (a >>> 7) &&& 1

end Sys2Proof.Machine
end

