-- ==== Sys2Proof/Machine/Alu.lean ====
section
/-! DEFINITION. Register loads, arithmetic, logic, shifts and random (41_alu.md). Where `x` is 15 the statements
run in the order the table writes them (R114, decision D9; log 12). -/

namespace Sys2Proof.Machine

/-- `6xkk` LD Vx, kk (R100). -/
def execLdImm (x : Reg) (kk : Byte) (s : State) : Result := .next (s.setReg x kk)

/-- `7xkk` ADD Vx, kk (R101): no flag. -/
def execAddImm (x : Reg) (kk : Byte) (s : State) : Result := .next (s.setReg x (s.reg x + kk))

/-- `8xy0` LD Vx, Vy (R102). -/
def execLdReg (x y : Reg) (s : State) : Result := .next (s.setReg x (s.reg y))

/-- `8xy1` OR (R103): `VF` is not touched. -/
def execOr (x y : Reg) (s : State) : Result := .next (s.setReg x (s.reg x ||| s.reg y))

/-- `8xy2` AND (R104). -/
def execAnd (x y : Reg) (s : State) : Result := .next (s.setReg x (s.reg x &&& s.reg y))

/-- `8xy3` XOR (R105). -/
def execXor (x y : Reg) (s : State) : Result := .next (s.setReg x (s.reg x ^^^ s.reg y))

/-- `8xy4` ADD Vx, Vy (R106): the result, then the carry. -/
def execAddReg (x y : Reg) (s : State) : Result :=
  .next ((s.setReg x (s.reg x + s.reg y)).setFlag (flagByte (carries (s.reg x) (s.reg y))))

/-- `8xy5` SUB (R107): the result, then the borrow of `V[x] - V[y]`. -/
def execSub (x y : Reg) (s : State) : Result :=
  .next ((s.setReg x (s.reg x - s.reg y)).setFlag (flagByte (borrows (s.reg x) (s.reg y))))

/-- `8xy6` SHR (R108): the flag, then the shift, which reads `V[x]` after the flag is written. -/
def execShr (x _y : Reg) (s : State) : Result :=
  let t := s.setFlag (lowBit (s.reg x))
  .next (t.setReg x (t.reg x >>> 1))

/-- `8xy7` SUBN (R109): the result, then the borrow of `V[y] - V[x]`. -/
def execSubn (x y : Reg) (s : State) : Result :=
  .next ((s.setReg x (s.reg y - s.reg x)).setFlag (flagByte (borrows (s.reg y) (s.reg x))))

/-- `8xyE` SHL (R110): the flag, then the shift, which reads `V[x]` after the flag is written. -/
def execShl (x _y : Reg) (s : State) : Result :=
  let t := s.setFlag (highBit (s.reg x))
  .next (t.setReg x (t.reg x <<< 1))

/-- `Cxkk` RND (R111): one free draw, masked. -/
def execRnd (x : Reg) (kk : Byte) (s : State) : Result :=
  .next ((draw s).2.setReg x ((draw s).1 &&& kk))

end Sys2Proof.Machine
end

