-- ==== Sys2Proof/Machine/Display.lean ====
section
/-! DEFINITION. The display unit, the sprite rasterizer, CLS and DRW (43_display.md). -/

namespace Sys2Proof.Machine

/-- The other state of a pixel. -/
def Pixel.flip : Pixel → Pixel
  | .off => .on
  | .on => .off

/-- The row of a coordinate: `y & (DISPLAY_H - 1)` for a power of two, `y & 31` here (R131). -/
def rowOf (c : Config) (y : Nat) : Fin 32 :=
  ⟨y % c.displayH.val, Nat.lt_of_lt_of_le (Nat.mod_lt _ (Nat.lt_of_lt_of_le (by decide) c.displayH.ge)) c.displayH.le⟩

/-- The column of a coordinate: `x & (DISPLAY_W - 1)` for a power of two, `x & 63` here (R131). -/
def colOf (c : Config) (x : Nat) : Fin 64 :=
  ⟨x % c.displayW.val, Nat.lt_of_lt_of_le (Nat.mod_lt _ (Nat.lt_of_lt_of_le (by decide) c.displayW.ge)) c.displayW.le⟩

/-- `pixel(x, y)` with toroidal wrap-around (R131). -/
def getPixel (c : Config) (d : Display) (x y : Nat) : Pixel := d[(rowOf c y).val][(colOf c x).val]

/-- `set_pixel(x, y, p)` with the same addressing (R132). -/
def setPixel (c : Config) (d : Display) (x y : Nat) (p : Pixel) : Display :=
  d.set (rowOf c y).val (d[(rowOf c y).val].set (colOf c x).val p)

/-- `cls()` (R133). -/
def blankDisplay : Display := Vector.replicate 32 (Vector.replicate 64 .off)

/-- `SPRITE_COLS` as a number (R135). -/
def spriteColumns : SpriteCols → Nat
  | .seven => 7
  | .eight => 8

/-- One sprite bit: a 1 flips its pixel and collides if it was `On`; a 0 does nothing (R134). -/
def drawBit (cf : Config) (bit : Bool) (x y : Nat) (acc : Display × Bool) : Display × Bool :=
  if bit then (setPixel cf acc.1 x y (getPixel cf acc.1 x y).flip, acc.2 || getPixel cf acc.1 x y == .on) else acc

/-- Columns `c`, `c + 1`, .. of one sprite row, `n` of them; column `c` is bit `7 - c` (R134). -/
def drawColumns (cf : Config) (b : Byte) (x0 y : Nat) : Nat → Nat → Display × Bool → Display × Bool
  | _, 0, acc => acc
  | c, n + 1, acc => drawColumns cf b x0 y (c + 1) n (drawBit cf (b.getLsbD (7 - c)) (x0 + c) y acc)

/-- The sprite rows from row `y` down (R134). -/
def drawRows (cf : Config) (x0 : Nat) : Nat → List Byte → Display × Bool → Display × Bool
  | _, [], acc => acc
  | y, b :: bs, acc => drawRows cf x0 (y + 1) bs (drawColumns cf b x0 y 0 (spriteColumns cf.spriteCols) acc)

/-- `drw(x0, y0, rows)`: the display after and whether any collision occurred (R134). -/
def drawSprite (cf : Config) (x0 y0 : Nat) (rows : List Byte) (d : Display) : Display × Bool :=
  drawRows cf x0 y0 rows (d, false)

/-- `00E0` CLS (R136). -/
def execCls (s : State) : Result := .next (s.setPix blankDisplay)

/-- `Dxyn` DRW (R137): all `n` bytes are read first, `V[x]` and `V[y]` before `VF` is written. -/
def execDrw (x y : Reg) (n : Fin 16) (s : State) : Result :=
  match readBytes s.config s.mem (effAddr s 0) n.val with
  | .ok rows =>
    let r := drawSprite s.config (s.reg x).toNat (s.reg y).toNat rows s.pix
    .next ((s.setPix r.1).setFlag (flagByte r.2))
  | .error f => abort f

end Sys2Proof.Machine
end

