-- ==== Sys2Proof/Machine/Flow.lean ====
section
/-! DEFINITION. Control transfer, skips and the subroutine stack (40_flow.md). In every meaning `pc` has already
been advanced past the instruction (10_state.md R14). -/

namespace Sys2Proof.Machine

/-- `0nnn` SYS (R83): a no-op; the log line is no state. -/
def execSys (_nnn : Addr) (s : State) : Result := .next s

/-- `00EE` RET (R84). -/
def execRet (s : State) : Result :=
  match pull s with
  | .ok (target, s') => .next (s'.setPc target)
  | .error f => abort f

/-- `1nnn` JP (R85). -/
def execJp (nnn : Addr) (s : State) : Result := .next (s.setPc (zextAddr nnn))

/-- `2nnn` CALL (R86). -/
def execCall (nnn : Addr) (s : State) : Result :=
  match push s.pc s with
  | .ok s' => .next (s'.setPc (zextAddr nnn))
  | .error f => abort f

/-- `3xkk` SE Vx, kk (R87). -/
def execSeImm (x : Reg) (kk : Byte) (s : State) : Result := .next (skipIf (s.reg x == kk) s)

/-- `4xkk` SNE Vx, kk (R88). -/
def execSneImm (x : Reg) (kk : Byte) (s : State) : Result := .next (skipIf (s.reg x != kk) s)

/-- `5xy0` SE Vx, Vy (R89). -/
def execSeReg (x y : Reg) (s : State) : Result := .next (skipIf (s.reg x == s.reg y) s)

/-- `9xy0` SNE Vx, Vy (R90). -/
def execSneReg (x y : Reg) (s : State) : Result := .next (skipIf (s.reg x != s.reg y) s)

/-- `Bnnn` JP V0 (R92): the sum is not reduced to 12 bits. -/
def execJpV0 (nnn : Addr) (s : State) : Result := .next (s.setPc (zextAddr nnn + zextByte (s.reg zeroReg)))

end Sys2Proof.Machine
end

