-- ==== Sys2Proof/Machine/IndexMemory.lean ====
section
/-! DEFINITION. The index register and the memory instructions (42_index_memory.md). None writes a flag, and
`Fx33`, `Fx55`, `Fx65` leave `I` as it is (R126; log 13). -/

namespace Sys2Proof.Machine

/-- `Annn` LD I, addr (R120). -/
def execLdI (nnn : Addr) (s : State) : Result := .next (s.setIndex (zextAddr nnn))

/-- `Fx1E` ADD I, Vx (R121): wraps modulo 65536, no flag. -/
def execAddI (x : Reg) (s : State) : Result := .next (s.setIndex (s.index + zextByte (s.reg x)))

/-- `Fx29` LD F, Vx (R122). -/
def execLdF (x : Reg) (s : State) : Result :=
  match glyphOperand (s.reg x) with
  | .ok d => .next (s.setIndex (BitVec.ofNat 16 (glyphAddress s.config d)))
  | .error f => abort f

/-- `Fx33` LD B, Vx (R123). -/
def execLdB (x : Reg) (s : State) : Result :=
  match writeBytes s.config s.mem (effAddr s 0) (bcdDigits (s.reg x)) with
  | .ok m => .next (s.setMem m)
  | .error f => abort f

/-- `Fx55` LD [I], Vx (R124). -/
def execStoreRegs (x : Reg) (s : State) : Result :=
  match writeBytes s.config s.mem (effAddr s 0) (regsUpTo s x) with
  | .ok m => .next (s.setMem m)
  | .error f => abort f

/-- `Fx65` LD Vx, [I] (R125). -/
def execLoadRegs (x : Reg) (s : State) : Result :=
  match readBytes s.config s.mem (effAddr s 0) (x.val + 1) with
  | .ok bs => .next (s.setRegs (loadRegsFrom s.v 0 bs))
  | .error f => abort f

end Sys2Proof.Machine
end

