-- ==== Sys2Proof/Machine/Keyboard.lean ====
section
/-! DEFINITION. The keyboard device and the key instructions (44_keyboard.md). -/

namespace Sys2Proof.Machine

/-- `key_state(k)` (R145). -/
def State.keyState (s : State) (k : Key) : KeyState := s.key[k.val]

/-- `first_pressed_key()`: the least pressed key, or none (R147). -/
def firstPressed (s : State) : Option Key := (List.finRange 16).find? (fun k => s.keyState k = .pressed)

/-- `Ex9E` SKP (R148). -/
def execSkp (x : Reg) (s : State) : Result :=
  match keyOperand (s.reg x) with
  | .ok k => .next (skipIf (s.keyState k = .pressed) s)
  | .error f => abort f

/-- `ExA1` SKNP (R149). -/
def execSknp (x : Reg) (s : State) : Result :=
  match keyOperand (s.reg x) with
  | .ok k => .next (skipIf (s.keyState k = .released) s)
  | .error f => abort f

/-- `Fx0A` LD Vx, K (R150): a busy-wait, not a block (R151). -/
def execLdVxK (x : Reg) (s : State) : Result :=
  match firstPressed s with
  | some k => .next (s.setReg x (BitVec.ofNat 8 k.val))
  | none => .next (rewind s)

end Sys2Proof.Machine
end

