-- ==== Sys2Proof/Machine/Timer.lean ====
section
/-! DEFINITION. The timer instructions (45_timer.md), the timer update and the waveform generator
(60_exceptions.md R176 to R181). -/

namespace Sys2Proof.Machine

/-- `Fx07` LD Vx, DT (45_timer.md R155). -/
def execLdVxDt (x : Reg) (s : State) : Result := .next (s.setReg x s.dt)

/-- `Fx15` LD DT, Vx (45_timer.md R156). -/
def execLdDtVx (x : Reg) (s : State) : Result := .next (s.setDt (s.reg x))

/-- `Fx18` LD ST, Vx (45_timer.md R157). -/
def execLdStVx (x : Reg) (s : State) : Result := .next (s.setSt (s.reg x))

/-- `max(c - 1, 0)` (60_exceptions.md R176). -/
def countDown (c : Byte) : Byte := if c = 0 then 0 else c - 1

/-- `update()`, the timer tick (60_exceptions.md R176, R177). -/
def timerUpdate (s : State) : State :=
  let nd := countDown s.dt
  (s.setDt nd).setSt (if s.config.soundTied then nd else countDown s.st)

/-- Samples per `WAVE`: `SAMPLE_FREQUENCY div 60` (60_exceptions.md R179, decision D13; log 16). -/
def samplesPerWave : Nat := Config.sampleFrequency / 60

/-- The callbacks of `WAVE` from sample `k` on, `n` of them, each as the sample index and the phase count at which it
is emitted, and the phase count after (60_exceptions.md R179: emit, then advance while `ST` is positive). -/
def waveFrom (sounding : Bool) : Nat → Nat → Nat → List (Nat × Nat) × Nat
  | _, 0, q => ([], q)
  | k, n + 1, q =>
    let rest := waveFrom sounding (k + 1) n (if sounding then q + 1 else q)
    ((k, q) :: rest.1, rest.2)

/-- `WAVE(cb)`: the emitted samples and the state after; it changes `PHASE` and nothing else (60_exceptions.md R179). -/
def waveBatch (s : State) : List (Nat × Nat) × State :=
  let r := waveFrom (0 < s.st.toNat) 0 samplesPerWave s.phase
  (r.1, s.setPhase r.2)

/-- The callbacks themselves, for a given `WAVE_SAMPLE` as a function of the phase count (decision D15; log 17). -/
def waveCallbacks {α : Type} (waveSample : Nat → α) (s : State) : List (Nat × α) :=
  (waveBatch s).1.map (fun e => (e.1, waveSample e.2))

/-- `p` is the `PHASE` that the count `q` stands for: `q * PHASE_STEP` reduced modulo 2 pi, in [0, 2 pi)
(10_state.md R21, 60_exceptions.md R180; log 17). -/
def IsPhase (phaseStep : ℝ) (q : Nat) (p : ℝ) : Prop :=
  0 ≤ p ∧ p < 2 * Real.pi ∧ ∃ k : ℤ, q * phaseStep = p + k * (2 * Real.pi)

/-- `v` is `WAVE_SAMPLE` at the count `q`: `sin(PHASE) / 2` (60_exceptions.md R179). -/
def IsWaveSample (phaseStep : ℝ) (q : Nat) (v : ℝ) : Prop :=
  ∃ p, IsPhase phaseStep q p ∧ v = Real.sin p / 2

end Sys2Proof.Machine
end

