-- ==== Sys2Proof/Machine/Step.lean ====
section
/-! DEFINITION. `STEP` (60_exceptions.md R184): fetch and advance, decode and dispatch, the instruction's rule, in the
priority order of R171. -/

namespace Sys2Proof.Machine

/-- One instruction. An aborted machine accepts no step (60_exceptions.md R170). -/
def step (s : State) : Host.Outcome State Fault Refusal :=
  match s.status with
  | .aborted => .refused .machineAborted
  | .running =>
    match fetch s with
    | .error f => abort f
    | .ok w =>
      match decode w with
      | .error _ => abort (.illegalOpcode w s.pc)
      | .ok i => exec i (advance s)

/-- `s` with the two bytes of a table word stored where `step` fetches next (log 20): at `pc`, which is moved to
`PROG_BASE` only where it lies outside what a fetch can reach, on a running machine. -/
def State.withFetchWord (s : State) (nbits w : Nat) : State :=
  let pc := if s.pc.toNat + 1 < s.config.memSize then s.pc else s.config.progBase.setWidth 16
  let bytes := tableWordBytes nbits w
  let mem := Memory.store s.config (Memory.store s.config s.mem pc.toNat bytes.1) (pc.toNat + 1) bytes.2
  ((s.setPc pc).setMem mem).setStatus .running

end Sys2Proof.Machine
end

