-- ==== Sys2Proof/Machine/Aborted.lean ====
section
/-! DEFINITION. What the rules leave of a machine at the moment of an abort (20_memory.md R57, 60_exceptions.md R169). A
step's outcome carries none of it, and nothing can observe it, so no statement rests on it (decision D20; log 3). -/

namespace Sys2Proof.Machine

/-- What an instruction leaves where it aborts: the bytes or registers below the offending address already moved by
`Fx33`, `Fx55`, `Fx65`, and no other change (60_exceptions.md R169). -/
def leftByInstr : Instr → State → State
  | .ldB x, s => s.setMem (writeUpTo s.config s.mem (effAddr s 0) (bcdDigits (s.reg x))).1
  | .storeRegs x, s => s.setMem (writeUpTo s.config s.mem (effAddr s 0) (regsUpTo s x)).1
  | .loadRegs x, s => s.setRegs (loadRegsFrom s.v 0 (readUpTo s.config s.mem (effAddr s 0) (x.val + 1)).1)
  | .cls, s | .ret, s | .sys _, s | .jp _, s | .call _, s | .seImm _ _, s | .sneImm _ _, s | .seReg _ _, s
  | .ldImm _ _, s | .addImm _ _, s | .ldReg _ _, s | .orReg _ _, s | .andReg _ _, s | .xorReg _ _, s
  | .addReg _ _, s | .subReg _ _, s | .shr _ _, s | .subnReg _ _, s | .shl _ _, s | .sneReg _ _, s | .ldI _, s
  | .jpV0 _, s | .rnd _ _, s | .drw _ _ _, s | .skp _, s | .sknp _, s | .ldVxDt _, s | .ldVxK _, s | .ldDtVx _, s
  | .ldStVx _, s | .addI _, s | .ldF _, s => s

/-- What a step leaves where it aborts: `pc` advanced past the instruction, but unchanged on a fetch abort
(60_exceptions.md R169). -/
def leftByStep (s : State) : State :=
  match fetch s with
  | .error _ => s
  | .ok w =>
    match decode w with
    | .error _ => advance s
    | .ok i => leftByInstr i (advance s)

/-- What a run of `n` steps leaves where it aborts: the steps before are done, the rest are not performed
(60_exceptions.md R169). -/
def leftBySteps : Nat → State → State
  | 0, s => s
  | n + 1, s =>
    match step s with
    | .next t => leftBySteps n t
    | .fault _ => leftByStep s
    | .refused _ => s

end Sys2Proof.Machine
end

