-- ==== Sys2Proof/Machine/Transaction.lean ====
section
/-! DEFINITION. The six host transactions, the hardware's whole interface (00_scope.md R5, decision D25), each
atomic (R6), and the status latch (10_state.md R24). -/

namespace Sys2Proof.Machine

/-- The longest ROM that fits, `MEM_SIZE - PROG_BASE` (70_reset_and_hazards.md R192). -/
def maxRomLength (c : Config) : Nat := c.memSize - c.progBase.toNat

/-- `RESET(rom)` of a machine with a given configuration (70_reset_and_hazards.md R190). Nothing of an earlier machine
survives (R195). The random source is no part of a machine: `draws` says how many of its bytes have been drawn, and a
reset takes that as it finds it (60_exceptions.md R182; log 1). -/
def resetRom (c : Config) (rom : List Byte) (draws : Nat) : Result :=
  if rom.length ≤ maxRomLength c then
    .next { State.reset with
      pc := c.progBase.setWidth 16, mem := loadImage c [] c.progBase.toNat rom, config := c, draws := draws }
  else abort (.romTooLarge rom.length)

/-- `n` steps, stopping at the first abort (60_exceptions.md R183). -/
def runSteps (n : Nat) (s : State) : Result := Host.Core.run Sys2Proof.core n s

/-- `FRAME(n)`: `n` steps, then one timer update; an abort ends it (60_exceptions.md R183). -/
def frame (n : Nat) (s : State) : Result :=
  match s.status with
  | .aborted => .refused .machineAborted
  | .running =>
    match runSteps n s with
    | .next t => .next (timerUpdate t)
    | .fault f => abort f
    | .refused r => .refused r

/-- The transactions by name (00_scope.md R5). A key number has type 0..15 (decision D29; log 26), a frame count is a
natural number (decision D12; log 15). -/
inductive Transaction where
  | reset (c : Config) (rom : List Byte)
  | step
  | frame (n : Nat)
  | keySet (k : Key) (p : KeyState)
  | pixelRead (x y : Nat)
  | wave
  deriving DecidableEq, Repr

/-- What the host gets back. -/
inductive Reply where
  | done
  /-- `PIXEL_READ` (43_display.md R139). -/
  | pixel (p : Pixel)
  /-- `WAVE`: each callback as sample index and phase count (60_exceptions.md R179). -/
  | samples (calls : List (Nat × Nat))
  /-- The diagnostic of an abort: its cause (60_exceptions.md R169). -/
  | aborted (f : Fault)
  | refused (r : Refusal)
  deriving DecidableEq, Repr

/-- The status latch: an abort leaves `ABORTED`, for good (10_state.md R24), and `left`, what the rules leave at the
moment of the abort (60_exceptions.md R169; log 3). -/
def latch (s left : State) : Result → Reply × State
  | .next t => (.done, t)
  | .fault f => (.aborted f, left.setStatus .aborted)
  | .refused r => (.refused r, s)

/-- A transaction that an aborted machine does not accept (60_exceptions.md R170). -/
def whenRunning (s : State) (r : Reply × State) : Reply × State :=
  match s.status with
  | .running => r
  | .aborted => (.refused .machineAborted, s)

/-- One host transaction. A `RESET` that aborts has written nothing (70_reset_and_hazards.md R190; log 25). -/
def transact : Transaction → State → Reply × State
  | .reset c rom, s => latch s s (resetRom c rom s.draws)
  | .step, s => latch s (leftByStep s) (step s)
  | .frame n, s => latch s (leftBySteps n s) (frame n s)
  | .keySet k p, s => whenRunning s (.done, s.setKey k p)
  | .pixelRead x y, s => whenRunning s (.pixel (getPixel s.config s.pix x y), s)
  | .wave, s => whenRunning s (.samples (waveBatch s).1, (waveBatch s).2)

end Sys2Proof.Machine
end

