-- ==== Sys2Proof/Safety.lean ====
section
/-! DEFINITION. What counts as a sound state and a safe step, and the vocabulary of frames that the statements use. -/

namespace Sys2Proof.Machine

/-- The invariant of the machine. Memory is in its canonical form (log 19); `pc` and the held
return addresses are bounded as 10_state.md R16 says: with `MEM_SIZE` = 4096, by 0x10FE and 0x1000. `SP` is at most
`STACK_DEPTH` (10_state.md R19). -/
structure State.Inv (s : State) : Prop where
  memoryCanonical : Memory.wf s.config s.mem
  pcBounded       : s.pc.toNat ≤ max 0x10FE (s.config.memSize + 2)
  returnsBounded  : ∀ j : Fin 16, j.val < s.sp.val → (s.stk[j.val]).toNat ≤ s.config.memSize
  stackBounded    : s.sp.val ≤ s.config.stackDepth.val

/-- A step that completes. -/
def State.StepsSafely (s : State) : Prop := ∃ t, step s = .next t

/-- The optional terminal state: a `1nnn` at its own address (70_reset_and_hazards.md R201, decision D24; log 29). -/
def State.Terminal (s : State) : Prop :=
  s.status = .running ∧ s.pc.toNat ≤ 0xFFF ∧ s.wordAt s.pc.toNat = .ok (0x1000 ||| s.pc)

/-- One piece of the state, by name: what a frame talks about. -/
inductive Component where
  | reg (r : Reg)
  | pc
  | index
  | sp
  | slot (j : Fin 16)
  | dt
  | st
  | phase
  | key (k : Key)
  | pixel (x y : Nat)
  | byte (a : Nat)
  | status
  | config
  | draws
  deriving DecidableEq, Repr

/-- The two states agree on one piece; memory through the read of one byte, the display through the read of one
pixel. -/
def SameAt (s t : State) : Component → Prop
  | .reg r => t.reg r = s.reg r
  | .pc => t.pc = s.pc
  | .index => t.index = s.index
  | .sp => t.sp = s.sp
  | .slot j => t.stk[j.val] = s.stk[j.val]
  | .dt => t.dt = s.dt
  | .st => t.st = s.st
  | .phase => t.phase = s.phase
  | .key k => t.keyState k = s.keyState k
  | .pixel x y => getPixel t.config t.pix x y = getPixel s.config s.pix x y
  | .byte a => t.byteAt a = s.byteAt a
  | .status => t.status = s.status
  | .config => t.config = s.config
  | .draws => t.draws = s.draws

/-- The frame: every piece of the state but the touched ones is as it was. -/
def ChangesOnly (touched : Component → Prop) (s t : State) : Prop := ∀ c, ¬ touched c → SameAt s t c

/-- The touched pieces given as a list. -/
def among (cs : List Component) (c : Component) : Prop := c ∈ cs

/-- The touched pieces of an instruction that stores `n` bytes from address `a` up. -/
def bytesFrom (a n : Nat) (c : Component) : Prop := ∃ k, k < n ∧ c = .byte (a + k)

/-- The instruction that the word at `pc` decodes to. -/
def State.Decodes (s : State) (i : Instr) : Prop := ∃ w, s.wordAt s.pc.toNat = .ok w ∧ decode w = .ok i

/-- Which general registers an instruction may write: the table of 10_state.md R12. -/
def mayWriteReg : Instr → Reg → Prop
  | .cls, _ | .ret, _ | .sys _, _ | .jp _, _ | .call _, _ | .seImm _ _, _ | .sneImm _ _, _ | .seReg _ _, _
  | .sneReg _ _, _ | .ldI _, _ | .jpV0 _, _ | .skp _, _ | .sknp _, _ | .ldDtVx _, _ | .ldStVx _, _ | .addI _, _
  | .ldF _, _ | .ldB _, _ | .storeRegs _, _ => False
  | .ldImm x _, r | .addImm x _, r | .ldReg x _, r | .orReg x _, r | .andReg x _, r | .xorReg x _, r
  | .rnd x _, r | .ldVxDt x, r | .ldVxK x, r => r = x
  | .addReg x _, r | .subReg x _, r | .shr x _, r | .subnReg x _, r | .shl x _, r => r = x ∨ r = 15
  | .drw _ _ _, r => r = 15
  | .loadRegs x, r => r ≤ x

/-- A drawn sprite bit of 1 lands on pixel `(px, py)`: row `r`, column `c` below `SPRITE_COLS`, bit `7 - c`, at
`((x0 + c) & 63, (y0 + r) & 31)` (43_display.md R134). -/
def SpriteCovers (cf : Config) (x0 y0 : Nat) (rows : List Byte) (px py : Nat) : Prop :=
  ∃ r c, r < rows.length ∧ c < spriteColumns cf.spriteCols ∧ (rows.getD r 0).getLsbD (7 - c) = true ∧
    colOf cf (x0 + c) = colOf cf px ∧ rowOf cf (y0 + r) = rowOf cf py

/-- The display after a sprite is drawn: covered pixels flipped, every other as before (43_display.md R134). -/
def DrawnOver (cf : Config) (x0 y0 : Nat) (rows : List Byte) (d d' : Display) : Prop :=
  ∀ px py,
    (SpriteCovers cf x0 y0 rows px py → getPixel cf d' px py = (getPixel cf d px py).flip) ∧
    (¬ SpriteCovers cf x0 y0 rows px py → getPixel cf d' px py = getPixel cf d px py)

/-- A covered pixel was `On` before the sprite was drawn (43_display.md R134, R138). -/
def SpriteHits (cf : Config) (x0 y0 : Nat) (rows : List Byte) (d : Display) : Prop :=
  ∃ px py, SpriteCovers cf x0 y0 rows px py ∧ getPixel cf d px py = .on

end Sys2Proof.Machine
end

