-- ==== Sys2Proof/Certificates/Slice0/Obligations.lean ====
section
/-! DEFINITION. The statements for the provers. Each per-instruction statement says the instruction's encoding, its
completion with its result, and its frame. In `exec i s` the state `s` is the one after the fetch advance, so that `s.pc` is
the instruction's own address plus 2 (10_state.md R14). -/

open Sys2Proof Sys2Proof.Machine

/-! ## Reset, step, abort -/

/-- 00_scope.md R4 with 20_memory.md R50 (decisions D1, D3, D4, D7, D8; logs 6, 7, 8, 11): the value column, the font
byte by byte, and what follows for a ROM (70_reset_and_hazards.md R192). -/
def Obligations.HardwareHasTheStatedParameters : Prop :=
  hardware.memSize = 4096 ∧ hardware.progBase = 0x200 ∧ hardware.fontBase.val = 0x000 ∧
  hardware.glyphStride.val = 5 ∧ hardware.spriteCols = .seven ∧ hardware.soundTied = true ∧
  hardware.stackDepth.val = 16 ∧ hardware.displayW.val = 64 ∧ hardware.displayH.val = 32 ∧
  hardware.font.toList =
    [0xF0, 0x90, 0x90, 0x90, 0xF0] ++ [0x20, 0x60, 0x20, 0x20, 0x70] ++ [0xF0, 0x10, 0xF0, 0x80, 0xF0] ++
    [0xF0, 0x10, 0xF0, 0x10, 0xF0] ++ [0x90, 0x90, 0xF0, 0x10, 0x10] ++ [0xF0, 0x80, 0xF0, 0x10, 0xF0] ++
    [0xF0, 0x80, 0xF0, 0x90, 0xF0] ++ [0xF0, 0x10, 0x20, 0x40, 0x40] ++ [0xF0, 0x90, 0xF0, 0x90, 0xF0] ++
    [0xF0, 0x90, 0xF0, 0x10, 0xF0] ++ [0xF0, 0x90, 0xF0, 0x90, 0x90] ++ [0xE0, 0x90, 0xE0, 0x90, 0xE0] ++
    [0xF0, 0x80, 0x80, 0x80, 0xF0] ++ [0xE0, 0x90, 0x90, 0x90, 0xE0] ++ [0xF0, 0x80, 0xF0, 0x80, 0xF0] ++
    [0xF0, 0x80, 0xF0, 0x80, 0x80] ∧
  maxRomLength hardware = 3584 ∧ State.reset.config = hardware

/-- 10_state.md R28, 70_reset_and_hazards.md R190, R191, R192, 20_memory.md R48, for every value of the parameters (log 30).
The spec's own decisions in it: zero stack slots (log 4), RUNNING (log 5), the ROM bound (log 14). -/
def Obligations.ResetBuildsTheStatedMachine : Prop :=
  resetRom hardware [] 0 = .next State.reset ∧
  ∀ (c : Config) (rom : List Byte) (k : Nat),
    (rom.length ≤ c.memSize - c.progBase.toNat → ∃ t, resetRom c rom k = .next t ∧
      (∀ r, t.reg r = 0) ∧ t.pc.toNat = c.progBase.toNat ∧ t.index = 0 ∧ t.sp.val = 0 ∧
      (∀ j : Fin 16, t.stk[j.val] = 0) ∧ t.dt = 0 ∧ t.st = 0 ∧ t.phase = 0 ∧ (∀ k, t.keyState k = .released) ∧
      (∀ x y, getPixel c t.pix x y = .off) ∧ t.status = .running ∧ t.config = c ∧ t.draws = k ∧
      (∀ j, j < rom.length → t.byteAt (c.progBase.toNat + j) = .ok (rom.getD j 0)) ∧
      (∀ a, a < c.memSize → a < c.progBase.toNat ∨ c.progBase.toNat + rom.length ≤ a →
        (∀ j : Fin 80, a = c.fontBase.val + j.val → t.byteAt a = .ok c.font[j.val]) ∧
        ((∀ j : Fin 80, a ≠ c.fontBase.val + j.val) → t.byteAt a = .ok 0))) ∧
    (c.memSize - c.progBase.toNat < rom.length → resetRom c rom k = .fault (.romTooLarge rom.length))

/-- 10_state.md R14 and 60_exceptions.md R184: a step of a running machine is the fetch, the advance by 2 and the
decoded instruction's meaning. -/
def Obligations.StepRunsTheDecodedInstruction : Prop :=
  ∀ (s : State) (hi lo : Byte) (i : Instr), s.status = .running →
    s.byteAt s.pc.toNat = .ok hi → s.byteAt (s.pc.toNat + 1) = .ok lo →
    decode (wordOfBytes hi lo) = .ok i → i.wf = true →
    step s = exec i { s with pc := s.pc + 2 }

/-- 60_exceptions.md R171 (decisions D2, D21; logs 6, 18): the fetch abort first, then the illegal word. -/
def Obligations.StepAbortsInFetchThenDecodeOrder : Prop :=
  ∀ s : State, s.status = .running →
    (s.config.memSize < s.pc.toNat + 2 →
      step s = .fault (.memOutOfRange (max s.pc.toNat s.config.memSize))) ∧
    (∀ w, s.wordAt s.pc.toNat = .ok w → (∀ i, decode w ≠ .ok i) →
      step s = .fault (.illegalOpcode w s.pc))

/-- 60_exceptions.md R168, R171 (decisions D2, D5, D6, D19): every abort of a step has one of the listed causes, raised
by the listed instruction in the listed case. -/
def Obligations.EveryAbortHasItsListedCause : Prop :=
  ∀ (s : State) (f : Fault), step s = .fault f → s.status = .running ∧
    match f with
    | .illegalOpcode w a => a = s.pc ∧ s.wordAt s.pc.toNat = .ok w ∧ ∀ i, decode w ≠ .ok i
    | .stackOverflow v => ∃ nnn, s.Decodes (.call nnn) ∧ s.config.stackDepth.val ≤ s.sp.val ∧ v = s.pc + 2
    | .stackUnderflow => s.Decodes .ret ∧ s.sp.val = 0
    | .memOutOfRange a =>
        a = max s.pc.toNat s.config.memSize ∧ s.config.memSize < s.pc.toNat + 2 ∨
        a = max s.index.toNat s.config.memSize ∧
          ((∃ x y n, s.Decodes (.drw x y n) ∧ 0 < n.val ∧ s.config.memSize < s.index.toNat + n.val) ∨
           (∃ x, s.Decodes (.ldB x) ∧ s.config.memSize ≤ s.index.toNat + 2) ∨
           (∃ x, (s.Decodes (.storeRegs x) ∨ s.Decodes (.loadRegs x)) ∧ s.config.memSize ≤ s.index.toNat + x.val))
    | .keyOutOfRange k => ∃ x, (s.Decodes (.skp x) ∨ s.Decodes (.sknp x)) ∧ k = s.reg x ∧ 15 < k.toNat
    | .glyphOutOfRange d => ∃ x, s.Decodes (.ldF x) ∧ d = s.reg x ∧ 15 < d.toNat
    | .romTooLarge _ => False

/-- 10_state.md R24, 60_exceptions.md R170 and 70_reset_and_hazards.md R195 (decisions D20, D28; log 3): an abort
latches ABORTED, nothing else does, an aborted machine accepts no transaction but RESET, and a RESET of a ROM that fits is
accepted by any machine, runs, and keeps nothing of it (the draw counter is no part of a machine, log 1). -/
def Obligations.AbortLatchesUntilReset : Prop :=
  (∀ (s t : State) (tx : Transaction) (f : Fault), transact tx s = (.aborted f, t) → t.status = .aborted) ∧
  (∀ (s t : State) (tx : Transaction) (r : Reply), transact tx s = (r, t) → t.status = .aborted →
    s.status = .aborted ∨ ∃ f, r = .aborted f) ∧
  (∀ (s : State) (tx : Transaction), s.status = .aborted → (∀ c rom, tx ≠ .reset c rom) →
    transact tx s = (.refused .machineAborted, s)) ∧
  (∀ (s : State) (c : Config) (rom : List Byte), rom.length ≤ maxRomLength c →
    ∃ t, resetRom c rom s.draws = .next t ∧ transact (.reset c rom) s = (.done, t) ∧ t.status = .running) ∧
  (∀ (s u : State) (c : Config) (rom : List Byte), rom.length ≤ maxRomLength c →
    (transact (.reset c rom) s).1 = (transact (.reset c rom) u).1 ∧
    ChangesOnly (among [.draws]) (transact (.reset c rom) s).2 (transact (.reset c rom) u).2)

/-- The model refuses no instruction: `exec` ends in a next state or in an abort of the spec. -/
def Obligations.NoInstructionIsRefused : Prop :=
  ∀ (i : Instr) (s : State) (r : Refusal), exec i s ≠ .refused r

/-! ## Encoding -/

/-- 30_encoding.md R62, R65: no bit of an encoding is dropped, alone and in front of any bytes. -/
def Obligations.DecodeOfEncodeIsTheInstruction : Prop :=
  ∀ (i : Instr) (rest : List Byte), i.wf = true →
    decode (encode i) = .ok i ∧ decodeBytes (encodeBytes i ++ rest) = .ok (i, rest)

/-- 30_encoding.md R64: a word has one meaning, and it is that of its own well-formed instruction. -/
def Obligations.EncodeOfDecodeIsTheWord : Prop :=
  ∀ (w : Word) (i : Instr), decode w = .ok i → i.wf = true ∧ encode i = w

/-- 30_encoding.md R66: the words that match no row are exactly those of its table (its counts are not stated). -/
def Obligations.IllegalWordsAreExactlyTheListed : Prop :=
  ∀ w : Word, decode w = .error (.illegalOpcode w) ↔
    (w.toNat / 0x1000 = 0x5 ∧ w.toNat % 0x10 ≠ 0) ∨
    (w.toNat / 0x1000 = 0x8 ∧ w.toNat % 0x10 ∈ [0x8, 0x9, 0xA, 0xB, 0xC, 0xD, 0xF]) ∨
    (w.toNat / 0x1000 = 0x9 ∧ w.toNat % 0x10 ≠ 0) ∨
    (w.toNat / 0x1000 = 0xE ∧ w.toNat % 0x100 ≠ 0x9E ∧ w.toNat % 0x100 ≠ 0xA1) ∨
    (w.toNat / 0x1000 = 0xF ∧
      w.toNat % 0x100 ∉ [0x07, 0x0A, 0x15, 0x18, 0x1E, 0x29, 0x33, 0x55, 0x65])

/-- 30_encoding.md R72: the field accessors agree with plain masking, and the nibbles make up the word. -/
def Obligations.FieldsAgreeWithMasking : Prop :=
  ∀ v : Word,
    (nib1 v).toNat = ((v >>> 12) &&& 0xF).toNat ∧ (nib2 v).toNat = ((v >>> 8) &&& 0xF).toNat ∧
    (nib3 v).toNat = ((v >>> 4) &&& 0xF).toNat ∧ (nib4 v).toNat = (v &&& 0xF).toNat ∧
    (fieldNnn v).toNat = (v &&& 0xFFF).toNat ∧ (fieldKk v).toNat = (v &&& 0xFF).toNat ∧
    v = nib1 v ++ nib2 v ++ nib3 v ++ nib4 v

/-- 30_encoding.md R64 and R65 agree: dispatch picks the first row of the opcode map that the word matches. -/
def Obligations.DecodeFollowsTheOpcodeMap : Prop :=
  ∀ w : Word, decodedPattern w = firstMatchingPattern w

/-- Words written out from the spec's encodings (30_encoding.md R65 and the examples of 95_test_vectors.md), one a
family at least. -/
def Obligations.WordsOfTheSpecDecode : Prop :=
  decode 0x00EE = .ok .ret ∧ decode 0x0123 = .ok (.sys 0x123) ∧ decode 0x2300 = .ok (.call 0x300) ∧
  decode 0x5340 = .ok (.seReg 3 4) ∧ decode 0x7105 = .ok (.addImm 1 0x05) ∧ decode 0x8125 = .ok (.subReg 1 2) ∧
  decode 0x8AB6 = .ok (.shr 0xA 0xB) ∧ decode 0xC30F = .ok (.rnd 3 0x0F) ∧ decode 0xF265 = .ok (.loadRegs 2) ∧
  decode 0xF033 = .ok (.ldB 0) ∧ decode 0xD012 = .ok (.drw 0 1 2) ∧ decode 0xE29E = .ok (.skp 2) ∧
  decode 0xF018 = .ok (.ldStVx 0) ∧ decode 0x8008 = .error (.illegalOpcode 0x8008)

/-! ## Memory -/

/-- 20_memory.md R42 (with the read of R41): a byte write sets its address and changes nothing else. -/
def Obligations.ByteWriteSetsOneAddress : Prop :=
  ∀ (c : Config) (m : Memory) (a : Nat) (v : Byte), a < c.memSize →
    ∃ m', writeByte c m a v = .ok m' ∧ readByte c m' a = .ok v ∧ ∀ b, b ≠ a → readByte c m' b = readByte c m b

/-- 20_memory.md R43: the word at an address is its byte, high, and the next byte, low. -/
def Obligations.WordReadIsBigEndian : Prop :=
  ∀ (c : Config) (m : Memory) (a : Nat) (hi lo : Byte), readByte c m a = .ok hi → readByte c m (a + 1) = .ok lo →
    ∃ w, readWord c m a = .ok w ∧ w.toNat = hi.toNat * 256 + lo.toNat

/-- The model's representation (log 19): canonical memories that read alike are equal data. -/
def Obligations.CanonicalMemoriesReadingAlikeAreEqual : Prop :=
  ∀ (c : Config) (m₁ m₂ : Memory), Memory.wf c m₁ → Memory.wf c m₂ →
    (∀ a, readByte c m₁ a = readByte c m₂ a) → m₁ = m₂

/-- 20_memory.md R54: a word fetched from stored bytes is made of the registers stored, at the very next fetch. -/
def Obligations.NextFetchSeesStoredRegisters : Prop :=
  ∀ (x : Reg) (s t : State), exec (.storeRegs x) s = .next t →
    ∀ j k : Reg, k.val = j.val + 1 → k ≤ x →
      t.wordAt (s.index.toNat + j.val) = .ok (wordOfBytes (s.reg j) (s.reg k))

/-! ## Invariants and whole-machine rules -/

/-- The invariant holds after every reset (10_state.md R16, R28; log 19). -/
def Obligations.InvariantHoldsAfterReset : Prop :=
  State.reset.Inv ∧ max 0x10FE (hardware.memSize + 2) = 0x10FE ∧
  ∀ (c : Config) (rom : List Byte) (k : Nat) (t : State), resetRom c rom k = .next t → t.Inv

/-- 10_state.md R16, R19, marked derived there: from every state with the invariant, a step keeps `pc` and the held return
addresses bounded (by 0x10FE and 0x1000 where `MEM_SIZE` is 4096), `SP` within the stack, and memory canonical. -/
def Obligations.StepKeepsTheInvariant : Prop :=
  ∀ s t : State, s.Inv → step s = .next t → t.Inv

/-- Every host transaction that leaves the machine running keeps the invariant (00_scope.md R5, R6). Of an aborted
machine it says nothing (60_exceptions.md R169, decision D20). -/
def Obligations.TransactionsKeepTheInvariant : Prop :=
  ∀ (tx : Transaction) (s : State), s.Inv → (transact tx s).2.status = .running → (transact tx s).2.Inv

/-- 20_memory.md R51: memory changes only through `Fx33` and `Fx55`; no key write, pixel read or wave touches it. -/
def Obligations.OnlyTwoInstructionsChangeMemory : Prop :=
  (∀ (i : Instr) (s t : State), exec i s = .next t → (∀ x, i ≠ .ldB x) → (∀ x, i ≠ .storeRegs x) →
    ∀ a, t.byteAt a = s.byteAt a) ∧
  (∀ (s : State) (k : Key) (p : KeyState) (x y a : Nat),
    (transact (.keySet k p) s).2.byteAt a = s.byteAt a ∧
    (transact (.pixelRead x y) s).2.byteAt a = s.byteAt a ∧
    (transact .wave s).2.byteAt a = s.byteAt a)

/-- 10_state.md R12, marked derived there: an instruction writes no general register but those its row lists; `VF` is
one of them only for the six flag instructions and as an ordinary destination (R17). -/
def Obligations.RegistersHaveTheirListedWriters : Prop :=
  ∀ (i : Instr) (s t : State) (r : Reg), exec i s = .next t → ¬ mayWriteReg i r → t.reg r = s.reg r

/-- 10_state.md R18 to R24 and 60_exceptions.md R184 (decision D10 for `I`; log 13): which instructions write each
special register, the stack, the display; none touches the phase, a key, the status or the parameters. -/
def Obligations.SpecialStateHasItsListedWriters : Prop :=
  ∀ (i : Instr) (s t : State), exec i s = .next t →
    ((∀ nnn, i ≠ .ldI nnn) → (∀ x, i ≠ .addI x) → (∀ x, i ≠ .ldF x) → t.index = s.index) ∧
    ((∀ nnn, i ≠ .call nnn) → i ≠ .ret → t.sp = s.sp) ∧
    ((∀ nnn, i ≠ .call nnn) → ∀ j : Fin 16, t.stk[j.val] = s.stk[j.val]) ∧
    ((∀ x, i ≠ .ldDtVx x) → t.dt = s.dt) ∧ ((∀ x, i ≠ .ldStVx x) → t.st = s.st) ∧
    (i ≠ .cls → (∀ x y n, i ≠ .drw x y n) → ∀ x y, getPixel t.config t.pix x y = getPixel s.config s.pix x y) ∧
    t.phase = s.phase ∧ (∀ k, t.keyState k = s.keyState k) ∧ t.status = s.status ∧ t.config = s.config

/-- 60_exceptions.md R182, 10_state.md R25 (the counter that names the draws is the model's own, log 1): no instruction
but `Cxkk` draws, each `Cxkk` takes the next draw and counts up, no host transaction resets or sets the source, and none
counts down, so no draw is taken twice. -/
def Obligations.NothingReseedsTheRandomSource : Prop :=
  (∀ (i : Instr) (s t : State), exec i s = .next t → (∀ x kk, i ≠ .rnd x kk) → t.draws = s.draws) ∧
  (∀ (x : Reg) (kk : Byte) (s t : State), exec (.rnd x kk) s = .next t →
    t.reg x = Config.drawByte s.draws &&& kk ∧ t.draws = s.draws + 1) ∧
  (∀ (s : State) (c : Config) (rom : List Byte) (k : Key) (p : KeyState) (x y : Nat),
    (transact (.reset c rom) s).2.draws = s.draws ∧ (transact (.keySet k p) s).2.draws = s.draws ∧
    (transact (.pixelRead x y) s).2.draws = s.draws ∧ (transact .wave s).2.draws = s.draws) ∧
  (∀ (tx : Transaction) (s : State), s.draws ≤ (transact tx s).2.draws)

/-- 70_reset_and_hazards.md R201 (decision D24; log 29): at a jump to itself a step changes nothing, and a frame only
counts the timers down. -/
def Obligations.SelfJumpIsTerminal : Prop :=
  ∀ s : State, s.Terminal → step s = .next s ∧ ∀ n, frame n s = .next (timerUpdate s)

/-- 40_flow.md R80, R81: push and pull, their bounds, what they change, and last in, first out. The rules give the
depth 16 of this hardware; that it holds for every `STACK_DEPTH` is the model's choice (log 30). -/
def Obligations.PushThenPullIsLastInFirstOut : Prop :=
  ∀ (s : State) (v : Word),
    (∀ j : Fin 16, s.sp.val = j.val → j.val < s.config.stackDepth.val →
      ∃ t u, push v s = .ok t ∧ t.sp.val = j.val + 1 ∧ t.stk[j.val] = v ∧ ChangesOnly (among [.sp, .slot j]) s t ∧
        pull t = .ok (v, u) ∧ u.sp.val = j.val ∧ ChangesOnly (among [.sp]) t u) ∧
    (s.config.stackDepth.val ≤ s.sp.val → push v s = .error (.stackOverflow v)) ∧
    (s.config.stackDepth.val = 16 → s.sp.val = 16 → push v s = .error (.stackOverflow v)) ∧
    (∀ j : Fin 16, s.sp.val = j.val + 1 →
      ∃ u, pull s = .ok (s.stk[j.val], u) ∧ u.sp.val = j.val ∧ ChangesOnly (among [.sp]) s u) ∧
    (s.sp.val = 0 → pull s = .error .stackUnderflow)

/-! ## Timer, audio, keyboard, display units -/

/-- 60_exceptions.md R176, R177, R183, R169 (decision D12 for the count; log 15): a frame runs its steps, then one timer
update; an abort ends it. Both values of `SOUND_TIED`. -/
def Obligations.FrameRunsStepsThenOneTimerUpdate : Prop :=
  ∀ (n : Nat) (s : State), s.status = .running →
    (∀ u, runSteps n s = .next u → ∃ t, frame n s = .next t ∧
      t.dt.toNat = u.dt.toNat - 1 ∧
      t.st.toNat = (if u.config.soundTied then u.dt.toNat - 1 else u.st.toNat - 1) ∧
      ChangesOnly (among [.dt, .st]) u t) ∧
    (∀ f, runSteps n s = .fault f → frame n s = .fault f)

/-- 60_exceptions.md R179, R181 (decisions D13, D16; logs 16, 17): a `WAVE` emits `SAMPLE_FREQUENCY div 60` samples,
each before its advance, and advances only while `ST` is positive; at `ST` = 0 it still emits. -/
def Obligations.WaveEmitsThenAdvances : Prop :=
  ∀ s : State,
    (waveBatch s).1 = (List.range (Config.sampleFrequency / 60)).map
      (fun k => (k, if 0 < s.st.toNat then s.phase + k else s.phase)) ∧
    (waveBatch s).2.phase = (if 0 < s.st.toNat then s.phase + Config.sampleFrequency / 60 else s.phase) ∧
    ChangesOnly (among [.phase]) s (waveBatch s).2 ∧
    (s.status = .running → transact .wave s = (.samples (waveBatch s).1, (waveBatch s).2))

/-- 10_state.md R21 and 60_exceptions.md R179 read through the phase count (decision D15; log 17): the count stands for
one phase in [0, 2 pi), counting once is adding `PHASE_STEP` modulo 2 pi, and the sample is `sin(PHASE)/2`, at most a half
in size and 0 at the count of reset. -/
def Obligations.PhaseCountStandsForThePhase : Prop :=
  ∀ step : ℝ, 0 < step → step < 2 * Real.pi →
    IsPhase step 0 0 ∧ IsWaveSample step 0 0 ∧ (∀ q, ∃! p, IsPhase step q p) ∧
    (∀ q p, IsPhase step q p →
      IsPhase step (q + 1) (if p + step < 2 * Real.pi then p + step else p + step - 2 * Real.pi)) ∧
    (∀ q v, IsWaveSample step q v → v = Real.sin (q * step) / 2 ∧ |v| ≤ 1 / 2)

/-- 44_keyboard.md R146 (decision D29 for the key's type; log 26): the host's key write changes one key, and a frame
changes none. -/
def Obligations.KeySetChangesOneKeyAndFramesNone : Prop :=
  (∀ (s : State) (k : Key) (p : KeyState), s.status = .running →
    ∃ t, transact (.keySet k p) s = (.done, t) ∧ t.keyState k = p ∧ ChangesOnly (among [.key k]) s t) ∧
  (∀ (n : Nat) (s t : State) (k : Key), frame n s = .next t → t.keyState k = s.keyState k)

/-- 44_keyboard.md R147: the least pressed key, or none when all are released. -/
def Obligations.FirstPressedKeyIsTheLeast : Prop :=
  ∀ s : State,
    (∀ k, firstPressed s = some k ↔ s.keyState k = .pressed ∧ ∀ j, j < k → s.keyState j = .released) ∧
    (firstPressed s = none ↔ ∀ k, s.keyState k = .released)

/-- 43_display.md R131 and R139, and the glossary of 00_scope.md on toroidal addressing: `pixel(x, y)` is the element of
`PIX` at the coordinates modulo the width and height, and reading changes nothing. R131 gives the 64 by 32 display of this
hardware, where these are `y & 31` and `x & 63`; that it holds for every width and height is the model's choice (log 30). -/
def Obligations.PixelReadsWrapAndChangeNothing : Prop :=
  ∀ (s : State) (x y : Nat),
    (∀ (r : Fin 32) (q : Fin 64), r.val = y % s.config.displayH.val → q.val = x % s.config.displayW.val →
      getPixel s.config s.pix x y = s.pix[r.val][q.val]) ∧
    (s.config.displayW.val = 64 → s.config.displayH.val = 32 →
      x % s.config.displayW.val = x &&& 63 ∧ y % s.config.displayH.val = y &&& 31 ∧
      getPixel s.config s.pix (x + 64) y = getPixel s.config s.pix x y ∧
      getPixel s.config s.pix x (y + 32) = getPixel s.config s.pix x y) ∧
    getPixel s.config s.pix (x + s.config.displayW.val) y = getPixel s.config s.pix x y ∧
    getPixel s.config s.pix x (y + s.config.displayH.val) = getPixel s.config s.pix x y ∧
    (s.status = .running → transact (.pixelRead x y) s = (.pixel (getPixel s.config s.pix x y), s))

/-- 43_display.md R134, R138(a) (decision D7 for the columns; log 11): drawing a sprite of at most 15 rows flips exactly
the pixels its drawn 1 bits cover, and reports whether one of them was `On`. For every value of the parameters, which is
the model's choice (log 30). -/
def Obligations.DrawingASpriteIsXorWithWrap : Prop :=
  ∀ (c : Config) (x0 y0 : Nat) (rows : List Byte) (d : Display), rows.length ≤ 15 →
    DrawnOver c x0 y0 rows d (drawSprite c x0 y0 rows d).1 ∧
    ((drawSprite c x0 y0 rows d).2 = true ↔ SpriteHits c x0 y0 rows d)

/-- 43_display.md R138(b): drawing the identical sprite at the identical position twice gives the display before, and
the second draw collides exactly if some covered pixel was `Off` before the first. For every value of the parameters, which is
the model's choice (log 30). -/
def Obligations.DrawingTwiceRestoresTheDisplay : Prop :=
  ∀ (c : Config) (x0 y0 : Nat) (rows : List Byte) (d : Display), rows.length ≤ 15 →
    (drawSprite c x0 y0 rows (drawSprite c x0 y0 rows d).1).1 = d ∧
    ((drawSprite c x0 y0 rows (drawSprite c x0 y0 rows d).1).2 = true ↔
      ∃ px py, SpriteCovers c x0 y0 rows px py ∧ getPixel c d px py = .off)

/-! ## Flow -/

/-- 40_flow.md R83. -/
def Obligations.SysChangesNothing : Prop :=
  ∀ (nnn : Addr) (s : State),
    (nnn ≠ 0x0E0 → nnn ≠ 0x0EE → decode (BitVec.ofNat 16 nnn.toNat) = .ok (.sys nnn)) ∧
    ∃ t, exec (.sys nnn) s = .next t ∧ ChangesOnly (among []) s t

/-- 40_flow.md R84: `pc` is the value pulled; on an empty stack the abort (which carries no state, log 2). -/
def Obligations.RetPullsThePc : Prop :=
  decode 0x00EE = .ok .ret ∧
  ∀ s : State,
    (∀ j : Fin 16, s.sp.val = j.val + 1 →
      ∃ t, exec .ret s = .next t ∧ t.pc = s.stk[j.val] ∧ t.sp.val = j.val ∧ ChangesOnly (among [.pc, .sp]) s t) ∧
    (s.sp.val = 0 → exec .ret s = .fault .stackUnderflow)

/-- 40_flow.md R85. -/
def Obligations.JpSetsThePc : Prop :=
  ∀ (nnn : Addr) (s : State),
    decode (BitVec.ofNat 16 (0x1000 + nnn.toNat)) = .ok (.jp nnn) ∧
    ∃ t, exec (.jp nnn) s = .next t ∧ t.pc.toNat = nnn.toNat ∧ ChangesOnly (among [.pc]) s t

/-- 40_flow.md R86: the advanced `pc` is pushed, `pc` is the target; on a full stack the abort (which carries no state,
log 2). The rule gives the depth 16; every `STACK_DEPTH` is the model's choice (log 30). -/
def Obligations.CallPushesAndJumps : Prop :=
  ∀ (nnn : Addr) (s : State),
    decode (BitVec.ofNat 16 (0x2000 + nnn.toNat)) = .ok (.call nnn) ∧
    (∀ j : Fin 16, s.sp.val = j.val → j.val < s.config.stackDepth.val →
      ∃ t, exec (.call nnn) s = .next t ∧ t.stk[j.val] = s.pc ∧ t.sp.val = j.val + 1 ∧ t.pc.toNat = nnn.toNat ∧
        ChangesOnly (among [.pc, .sp, .slot j]) s t) ∧
    (s.config.stackDepth.val ≤ s.sp.val → exec (.call nnn) s = .fault (.stackOverflow s.pc))

/-- 40_flow.md R87, R88: the skips that compare with an immediate. -/
def Obligations.ImmediateSkipsFollowTheComparison : Prop :=
  ∀ (x : Reg) (kk : Byte) (s : State),
    decode (BitVec.ofNat 16 (0x3000 + 0x100 * x.val + kk.toNat)) = .ok (.seImm x kk) ∧
    decode (BitVec.ofNat 16 (0x4000 + 0x100 * x.val + kk.toNat)) = .ok (.sneImm x kk) ∧
    (∃ t, exec (.seImm x kk) s = .next t ∧ t.pc = (if s.reg x = kk then s.pc + 2 else s.pc) ∧
      ChangesOnly (among [.pc]) s t) ∧
    (∃ t, exec (.sneImm x kk) s = .next t ∧ t.pc = (if s.reg x = kk then s.pc else s.pc + 2) ∧
      ChangesOnly (among [.pc]) s t)

/-- 40_flow.md R89, R90: the skips that compare two registers. -/
def Obligations.RegisterSkipsFollowTheComparison : Prop :=
  ∀ (x y : Reg) (s : State),
    decode (BitVec.ofNat 16 (0x5000 + 0x100 * x.val + 0x10 * y.val)) = .ok (.seReg x y) ∧
    decode (BitVec.ofNat 16 (0x9000 + 0x100 * x.val + 0x10 * y.val)) = .ok (.sneReg x y) ∧
    (∃ t, exec (.seReg x y) s = .next t ∧ t.pc = (if s.reg x = s.reg y then s.pc + 2 else s.pc) ∧
      ChangesOnly (among [.pc]) s t) ∧
    (∃ t, exec (.sneReg x y) s = .next t ∧ t.pc = (if s.reg x = s.reg y then s.pc else s.pc + 2) ∧
      ChangesOnly (among [.pc]) s t)

/-- 40_flow.md R92: the sum with `V0` is not reduced to 12 bits. -/
def Obligations.JpV0AddsV0ToTheTarget : Prop :=
  ∀ (nnn : Addr) (s : State),
    decode (BitVec.ofNat 16 (0xB000 + nnn.toNat)) = .ok (.jpV0 nnn) ∧
    ∃ t, exec (.jpV0 nnn) s = .next t ∧ t.pc.toNat = nnn.toNat + (s.reg 0).toNat ∧ ChangesOnly (among [.pc]) s t

/-! ## Alu -/

/-- 41_alu.md R100. -/
def Obligations.LdImmediateLoadsVx : Prop :=
  ∀ (x : Reg) (kk : Byte) (s : State),
    decode (BitVec.ofNat 16 (0x6000 + 0x100 * x.val + kk.toNat)) = .ok (.ldImm x kk) ∧
    ∃ t, exec (.ldImm x kk) s = .next t ∧ t.reg x = kk ∧ ChangesOnly (among [.reg x]) s t

/-- 41_alu.md R101: the sum modulo 256, and no flag. -/
def Obligations.AddImmediateWrapsWithoutFlag : Prop :=
  ∀ (x : Reg) (kk : Byte) (s : State),
    decode (BitVec.ofNat 16 (0x7000 + 0x100 * x.val + kk.toNat)) = .ok (.addImm x kk) ∧
    ∃ t, exec (.addImm x kk) s = .next t ∧ (t.reg x).toNat = ((s.reg x).toNat + kk.toNat) % 256 ∧
      ChangesOnly (among [.reg x]) s t

/-- 41_alu.md R102. -/
def Obligations.LdRegisterCopiesVy : Prop :=
  ∀ (x y : Reg) (s : State),
    decode (BitVec.ofNat 16 (0x8000 + 0x100 * x.val + 0x10 * y.val)) = .ok (.ldReg x y) ∧
    ∃ t, exec (.ldReg x y) s = .next t ∧ t.reg x = s.reg y ∧ ChangesOnly (among [.reg x]) s t

/-- 41_alu.md R103, R104, R105: bit by bit, and no flag. -/
def Obligations.LogicActsBitwiseWithoutFlag : Prop :=
  ∀ (x y : Reg) (s : State),
    decode (BitVec.ofNat 16 (0x8001 + 0x100 * x.val + 0x10 * y.val)) = .ok (.orReg x y) ∧
    decode (BitVec.ofNat 16 (0x8002 + 0x100 * x.val + 0x10 * y.val)) = .ok (.andReg x y) ∧
    decode (BitVec.ofNat 16 (0x8003 + 0x100 * x.val + 0x10 * y.val)) = .ok (.xorReg x y) ∧
    (∃ t, exec (.orReg x y) s = .next t ∧ ChangesOnly (among [.reg x]) s t ∧
      ∀ b, (t.reg x).getLsbD b = ((s.reg x).getLsbD b || (s.reg y).getLsbD b)) ∧
    (∃ t, exec (.andReg x y) s = .next t ∧ ChangesOnly (among [.reg x]) s t ∧
      ∀ b, (t.reg x).getLsbD b = ((s.reg x).getLsbD b && (s.reg y).getLsbD b)) ∧
    (∃ t, exec (.xorReg x y) s = .next t ∧ ChangesOnly (among [.reg x]) s t ∧
      ∀ b, (t.reg x).getLsbD b = ((s.reg x).getLsbD b != (s.reg y).getLsbD b))

/-- 41_alu.md R106, R115, with the order of writes of R114 for `x` = 15 (decision D9; log 12): the sum modulo 256, then
the carry into `VF`. -/
def Obligations.AddRegisterSetsCarry : Prop :=
  ∀ (x y : Reg) (s : State),
    decode (BitVec.ofNat 16 (0x8004 + 0x100 * x.val + 0x10 * y.val)) = .ok (.addReg x y) ∧
    ∃ t, exec (.addReg x y) s = .next t ∧
      t.reg 15 = (if 255 < (s.reg x).toNat + (s.reg y).toNat then 1 else 0) ∧
      (t.reg x).toNat = (if x = 15 then (t.reg 15).toNat else ((s.reg x).toNat + (s.reg y).toNat) % 256) ∧
      ChangesOnly (among [.reg x, .reg 15]) s t

/-- 41_alu.md R107, R109, R115, with the order of writes of R114 for `x` = 15 (decision D9; log 12): the difference
modulo 256, then 1 into `VF` exactly on a borrow. -/
def Obligations.SubtractionsSetBorrow : Prop :=
  ∀ (x y : Reg) (s : State),
    decode (BitVec.ofNat 16 (0x8005 + 0x100 * x.val + 0x10 * y.val)) = .ok (.subReg x y) ∧
    decode (BitVec.ofNat 16 (0x8007 + 0x100 * x.val + 0x10 * y.val)) = .ok (.subnReg x y) ∧
    (∃ t, exec (.subReg x y) s = .next t ∧
      t.reg 15 = (if (s.reg x).toNat < (s.reg y).toNat then 1 else 0) ∧
      (t.reg x).toNat = (if x = 15 then (t.reg 15).toNat else (256 + (s.reg x).toNat - (s.reg y).toNat) % 256) ∧
      ChangesOnly (among [.reg x, .reg 15]) s t) ∧
    (∃ t, exec (.subnReg x y) s = .next t ∧
      t.reg 15 = (if (s.reg y).toNat < (s.reg x).toNat then 1 else 0) ∧
      (t.reg x).toNat = (if x = 15 then (t.reg 15).toNat else (256 + (s.reg y).toNat - (s.reg x).toNat) % 256) ∧
      ChangesOnly (among [.reg x, .reg 15]) s t)

/-- 41_alu.md R108, R110, with the order of writes of R114 for `x` = 15 (decision D9; log 12): the bit shifted out into
`VF`, then `V[x]` shifted by one; `y` is ignored. -/
def Obligations.ShiftsMoveOneBitIntoVf : Prop :=
  ∀ (x y : Reg) (s : State),
    decode (BitVec.ofNat 16 (0x8006 + 0x100 * x.val + 0x10 * y.val)) = .ok (.shr x y) ∧
    decode (BitVec.ofNat 16 (0x800E + 0x100 * x.val + 0x10 * y.val)) = .ok (.shl x y) ∧
    (∃ t, exec (.shr x y) s = .next t ∧
      (t.reg 15).toNat = (if x = 15 then 0 else (s.reg x).toNat % 2) ∧
      (t.reg x).toNat = (if x = 15 then 0 else (s.reg x).toNat / 2) ∧
      ChangesOnly (among [.reg x, .reg 15]) s t) ∧
    (∃ t, exec (.shl x y) s = .next t ∧
      (t.reg 15).toNat = (if x = 15 then 2 * ((s.reg x).toNat / 128) else (s.reg x).toNat / 128) ∧
      (t.reg x).toNat = (if x = 15 then 2 * ((s.reg x).toNat / 128) else 2 * (s.reg x).toNat % 256) ∧
      ChangesOnly (among [.reg x, .reg 15]) s t)

/-- 41_alu.md R111: one free draw, masked, whatever the draw is (the counter that names it is the model's own, log 1). -/
def Obligations.RndMasksOneFreeDraw : Prop :=
  ∀ (x : Reg) (kk : Byte) (s : State),
    decode (BitVec.ofNat 16 (0xC000 + 0x100 * x.val + kk.toNat)) = .ok (.rnd x kk) ∧
    ∃ t, exec (.rnd x kk) s = .next t ∧ t.reg x = Config.drawByte s.draws &&& kk ∧ t.draws = s.draws + 1 ∧
      ChangesOnly (among [.reg x, .draws]) s t

/-! ## Index and memory -/

/-- 42_index_memory.md R120. -/
def Obligations.LdIndexLoadsTheAddress : Prop :=
  ∀ (nnn : Addr) (s : State),
    decode (BitVec.ofNat 16 (0xA000 + nnn.toNat)) = .ok (.ldI nnn) ∧
    ∃ t, exec (.ldI nnn) s = .next t ∧ t.index.toNat = nnn.toNat ∧ ChangesOnly (among [.index]) s t

/-- 42_index_memory.md R121: the sum modulo 65536, and no flag. -/
def Obligations.AddIndexWrapsWithoutFlag : Prop :=
  ∀ (x : Reg) (s : State),
    decode (BitVec.ofNat 16 (0xF01E + 0x100 * x.val)) = .ok (.addI x) ∧
    ∃ t, exec (.addI x) s = .next t ∧ t.index.toNat = (s.index.toNat + (s.reg x).toNat) % 65536 ∧
      ChangesOnly (among [.index]) s t

/-- 42_index_memory.md R122 with 20_memory.md R49 (decisions D3, D5; logs 7, 9): glyph `d` lies at
`FONT_BASE + GLYPH_STRIDE * d`, which is `5 * d` on this hardware; a digit above 15 aborts. -/
def Obligations.LdGlyphPointsAtTheDigit : Prop :=
  ∀ (x : Reg) (s : State),
    decode (BitVec.ofNat 16 (0xF029 + 0x100 * x.val)) = .ok (.ldF x) ∧
    ((s.reg x).toNat ≤ 15 →
      ∃ t, exec (.ldF x) s = .next t ∧ ChangesOnly (among [.index]) s t ∧
        t.index.toNat = s.config.fontBase.val + s.config.glyphStride.val * (s.reg x).toNat ∧
        (s.config.fontBase.val = 0 → s.config.glyphStride.val = 5 → t.index.toNat = 5 * (s.reg x).toNat)) ∧
    (15 < (s.reg x).toNat → exec (.ldF x) s = .fault (.glyphOutOfRange (s.reg x)))

/-- 42_index_memory.md R123, R126 (decisions D2, D10; logs 6, 13): hundreds, tens, ones at `I`, `I + 1`, `I + 2`; past the
end of memory the abort at the first bad address. -/
def Obligations.BcdStoresThreeDigits : Prop :=
  ∀ (x : Reg) (s : State),
    decode (BitVec.ofNat 16 (0xF033 + 0x100 * x.val)) = .ok (.ldB x) ∧
    (s.index.toNat + 2 < s.config.memSize → ∃ t, exec (.ldB x) s = .next t ∧
      t.byteAt (effAddr s 0) = .ok (BitVec.ofNat 8 ((s.reg x).toNat / 100)) ∧
      t.byteAt (effAddr s 1) = .ok (BitVec.ofNat 8 ((s.reg x).toNat / 10 % 10)) ∧
      t.byteAt (effAddr s 2) = .ok (BitVec.ofNat 8 ((s.reg x).toNat % 10)) ∧
      ChangesOnly (bytesFrom (effAddr s 0) 3) s t) ∧
    (s.config.memSize ≤ s.index.toNat + 2 →
      exec (.ldB x) s = .fault (.memOutOfRange (max s.index.toNat s.config.memSize)))

/-- 42_index_memory.md R124, R126 (decisions D2, D10; logs 6, 13): `V[k]` at `I + k` for `k` up to `x`; past the end of
memory the abort at the first bad address. -/
def Obligations.StoreRegistersWritesMemoryAtI : Prop :=
  ∀ (x : Reg) (s : State),
    decode (BitVec.ofNat 16 (0xF055 + 0x100 * x.val)) = .ok (.storeRegs x) ∧
    (s.index.toNat + x.val < s.config.memSize → ∃ t, exec (.storeRegs x) s = .next t ∧
      (∀ k : Reg, k ≤ x → t.byteAt (effAddr s k.val) = .ok (s.reg k)) ∧
      ChangesOnly (bytesFrom (effAddr s 0) (x.val + 1)) s t) ∧
    (s.config.memSize ≤ s.index.toNat + x.val →
      exec (.storeRegs x) s = .fault (.memOutOfRange (max s.index.toNat s.config.memSize)))

/-- 42_index_memory.md R125, R126 (decisions D2, D10; logs 6, 13): `V[k]` from `I + k` for `k` up to `x`; past the end of
memory the abort at the first bad address. -/
def Obligations.LoadRegistersReadsMemoryAtI : Prop :=
  ∀ (x : Reg) (s : State),
    decode (BitVec.ofNat 16 (0xF065 + 0x100 * x.val)) = .ok (.loadRegs x) ∧
    (s.index.toNat + x.val < s.config.memSize → ∃ t, exec (.loadRegs x) s = .next t ∧
      (∀ k : Reg, k ≤ x → s.byteAt (effAddr s k.val) = .ok (t.reg k)) ∧
      ChangesOnly (fun c => ∃ k, k ≤ x ∧ c = .reg k) s t) ∧
    (s.config.memSize ≤ s.index.toNat + x.val →
      exec (.loadRegs x) s = .fault (.memOutOfRange (max s.index.toNat s.config.memSize)))

/-! ## Display, keyboard, timer instructions -/

/-- 43_display.md R136. -/
def Obligations.ClsTurnsEveryPixelOff : Prop :=
  decode 0x00E0 = .ok .cls ∧
  ∀ s : State, ∃ t, exec .cls s = .next t ∧ (∀ x y, getPixel t.config t.pix x y = .off) ∧
    ChangesOnly (fun c => ∃ x y, c = .pixel x y) s t

/-- 43_display.md R137, R134 (decisions D2, D7; logs 6, 11): the `n` bytes at `I` are drawn at `(V[x], V[y])`, and `VF` is
1 exactly on a collision; past the end of memory the abort at the first bad address. -/
def Obligations.DrwDrawsMemoryAtIAndSetsVf : Prop :=
  ∀ (x y : Reg) (n : Fin 16) (s : State),
    decode (BitVec.ofNat 16 (0xD000 + 0x100 * x.val + 0x10 * y.val + n.val)) = .ok (.drw x y n) ∧
    (n.val = 0 ∨ s.index.toNat + n.val ≤ s.config.memSize → ∃ t rows, exec (.drw x y n) s = .next t ∧ rows.length = n.val ∧
      (∀ r, r < n.val → s.byteAt (effAddr s r) = .ok (rows.getD r 0)) ∧
      DrawnOver s.config (s.reg x).toNat (s.reg y).toNat rows s.pix t.pix ∧
      (SpriteHits s.config (s.reg x).toNat (s.reg y).toNat rows s.pix → t.reg 15 = 1) ∧
      (¬ SpriteHits s.config (s.reg x).toNat (s.reg y).toNat rows s.pix → t.reg 15 = 0) ∧
      ChangesOnly (fun c => c = .reg 15 ∨ ∃ px py, c = .pixel px py) s t) ∧
    (0 < n.val → s.config.memSize < s.index.toNat + n.val →
      exec (.drw x y n) s = .fault (.memOutOfRange (max s.index.toNat s.config.memSize)))

/-- 44_keyboard.md R148, R149 (decision D6; log 10): the skips on a key level; a key number above 15 aborts. -/
def Obligations.KeySkipsFollowTheKeyLevel : Prop :=
  ∀ (x : Reg) (s : State),
    decode (BitVec.ofNat 16 (0xE09E + 0x100 * x.val)) = .ok (.skp x) ∧
    decode (BitVec.ofNat 16 (0xE0A1 + 0x100 * x.val)) = .ok (.sknp x) ∧
    (∀ k : Key, (s.reg x).toNat = k.val →
      (∃ t, exec (.skp x) s = .next t ∧ t.pc = (if s.keyState k = .pressed then s.pc + 2 else s.pc) ∧
        ChangesOnly (among [.pc]) s t) ∧
      (∃ t, exec (.sknp x) s = .next t ∧ t.pc = (if s.keyState k = .pressed then s.pc else s.pc + 2) ∧
        ChangesOnly (among [.pc]) s t)) ∧
    (15 < (s.reg x).toNat → exec (.skp x) s = .fault (.keyOutOfRange (s.reg x)) ∧
      exec (.sknp x) s = .fault (.keyOutOfRange (s.reg x)))

/-- 44_keyboard.md R150: the least pressed key into `V[x]`, or `pc` back to the instruction when none is down. -/
def Obligations.KeyWaitTakesTheLeastKeyOrRewinds : Prop :=
  ∀ (x : Reg) (s : State),
    decode (BitVec.ofNat 16 (0xF00A + 0x100 * x.val)) = .ok (.ldVxK x) ∧
    (∀ k : Key, s.keyState k = .pressed → (∀ j, j < k → s.keyState j = .released) →
      ∃ t, exec (.ldVxK x) s = .next t ∧ (t.reg x).toNat = k.val ∧ ChangesOnly (among [.reg x]) s t) ∧
    ((∀ k, s.keyState k = .released) →
      ∃ t, exec (.ldVxK x) s = .next t ∧ t.pc = s.pc - 2 ∧ ChangesOnly (among [.pc]) s t)

/-- 45_timer.md R155, R156, R157. -/
def Obligations.TimerRegistersAreCopied : Prop :=
  ∀ (x : Reg) (s : State),
    decode (BitVec.ofNat 16 (0xF007 + 0x100 * x.val)) = .ok (.ldVxDt x) ∧
    decode (BitVec.ofNat 16 (0xF015 + 0x100 * x.val)) = .ok (.ldDtVx x) ∧
    decode (BitVec.ofNat 16 (0xF018 + 0x100 * x.val)) = .ok (.ldStVx x) ∧
    (∃ t, exec (.ldVxDt x) s = .next t ∧ t.reg x = s.dt ∧ ChangesOnly (among [.reg x]) s t) ∧
    (∃ t, exec (.ldDtVx x) s = .next t ∧ t.dt = s.reg x ∧ ChangesOnly (among [.dt]) s t) ∧
    (∃ t, exec (.ldStVx x) s = .next t ∧ t.st = s.reg x ∧ ChangesOnly (among [.st]) s t)
end

