-- ==== Sys2Proof/Laws/Decode.lean ====
section
/-! SUPPORT. The fields of a word as numbers, and of the encoder's three word shapes (30_encoding.md R61, R62, R72). -/

namespace Sys2Proof

@[simp] theorem regOfBits_bitsOfReg (r : Reg) : regOfBits (bitsOfReg r) = r := rfl
@[simp] theorem bitsOfReg_regOfBits (b : Nibble) : bitsOfReg (regOfBits b) = b := rfl
@[simp] theorem toFin_ofFin (n : Fin 16) : (BitVec.ofFin n : Nibble).toFin = n := rfl
@[simp] theorem bitsOfReg_toNat (r : Reg) : (bitsOfReg r).toNat = r.val := rfl

section Fields
variable (w : Word)

theorem nib1_toNat : (nib1 w).toNat = w.toNat / 0x1000 % 16 := by
  simp [nib1, BitVec.extractLsb'_toNat, Nat.shiftRight_eq_div_pow]
theorem nib2_toNat : (nib2 w).toNat = w.toNat / 0x100 % 16 := by
  simp [nib2, BitVec.extractLsb'_toNat, Nat.shiftRight_eq_div_pow]
theorem nib3_toNat : (nib3 w).toNat = w.toNat / 0x10 % 16 := by
  simp [nib3, BitVec.extractLsb'_toNat, Nat.shiftRight_eq_div_pow]
theorem nib4_toNat : (nib4 w).toNat = w.toNat % 16 := by
  simp [nib4, BitVec.extractLsb'_toNat]
theorem fieldKk_toNat : (fieldKk w).toNat = w.toNat % 0x100 := by
  simp [fieldKk, BitVec.extractLsb'_toNat]
theorem fieldNnn_toNat : (fieldNnn w).toNat = w.toNat % 0x1000 := by
  simp [fieldNnn, BitVec.extractLsb'_toNat]
end Fields

/-- Appending bits is multiplying by a power of two and adding. -/
theorem append_toNat {w v : Nat} (a : BitVec w) (b : BitVec v) : (a ++ b).toNat = a.toNat * 2 ^ v + b.toNat := by
  rw [BitVec.toNat_append, ← Nat.shiftLeft_add_eq_or_of_lt b.isLt, Nat.shiftLeft_eq]

/-- Format `NNN` as a number. -/
theorem wordNNN_toNat (a : Nibble) (nnn : Addr) : (wordNNN a nnn).toNat = 0x1000 * a.toNat + nnn.toNat := by
  rw [wordNNN, append_toNat]; omega

/-- Formats `XKK` and `X` as a number. -/
theorem wordXKK_toNat (a : Nibble) (x : Reg) (kk : Byte) :
    (wordXKK a x kk).toNat = 0x1000 * a.toNat + 0x100 * x.val + kk.toNat := by
  rw [wordXKK, append_toNat, append_toNat, bitsOfReg_toNat]; omega

/-- Formats `XY` and `XYN` as a number. -/
theorem wordXYN_toNat (a : Nibble) (x y : Reg) (n : Nibble) :
    (wordXYN a x y n).toNat = 0x1000 * a.toNat + 0x100 * x.val + 0x10 * y.val + n.toNat := by
  rw [wordXYN, append_toNat, append_toNat, append_toNat, bitsOfReg_toNat, bitsOfReg_toNat]; omega

/-- The fetched word as a number (20_memory.md R43). -/
theorem wordOfBytes_toNat (hi lo : Byte) : (wordOfBytes hi lo).toNat = 0x100 * hi.toNat + lo.toNat := by
  rw [wordOfBytes, append_toNat]; omega

section NNN
variable (a : Nibble) (nnn : Addr)

@[simp] theorem nib1_wordNNN : nib1 (wordNNN a nnn) = a :=
  BitVec.eq_of_toNat_eq (by rw [nib1_toNat, wordNNN_toNat]; omega)
@[simp] theorem fieldNnn_wordNNN : fieldNnn (wordNNN a nnn) = nnn :=
  BitVec.eq_of_toNat_eq (by rw [fieldNnn_toNat, wordNNN_toNat]; omega)
end NNN

section XKK
variable (a : Nibble) (x : Reg) (kk : Byte)

@[simp] theorem nib1_wordXKK : nib1 (wordXKK a x kk) = a :=
  BitVec.eq_of_toNat_eq (by rw [nib1_toNat, wordXKK_toNat]; omega)
@[simp] theorem nib2_wordXKK : nib2 (wordXKK a x kk) = bitsOfReg x :=
  BitVec.eq_of_toNat_eq (by rw [nib2_toNat, wordXKK_toNat, bitsOfReg_toNat]; omega)
@[simp] theorem fieldKk_wordXKK : fieldKk (wordXKK a x kk) = kk :=
  BitVec.eq_of_toNat_eq (by rw [fieldKk_toNat, wordXKK_toNat]; omega)
@[simp] theorem selX_wordXKK : selX (wordXKK a x kk) = x := by
  rw [selX, nib2_wordXKK, regOfBits_bitsOfReg]
end XKK

section XYN
variable (a : Nibble) (x y : Reg) (n : Nibble)

@[simp] theorem nib1_wordXYN : nib1 (wordXYN a x y n) = a :=
  BitVec.eq_of_toNat_eq (by rw [nib1_toNat, wordXYN_toNat]; omega)
@[simp] theorem nib2_wordXYN : nib2 (wordXYN a x y n) = bitsOfReg x :=
  BitVec.eq_of_toNat_eq (by rw [nib2_toNat, wordXYN_toNat, bitsOfReg_toNat]; omega)
@[simp] theorem nib3_wordXYN : nib3 (wordXYN a x y n) = bitsOfReg y :=
  BitVec.eq_of_toNat_eq (by rw [nib3_toNat, wordXYN_toNat, bitsOfReg_toNat]; omega)
@[simp] theorem nib4_wordXYN : nib4 (wordXYN a x y n) = n :=
  BitVec.eq_of_toNat_eq (by rw [nib4_toNat, wordXYN_toNat]; omega)
@[simp] theorem selX_wordXYN : selX (wordXYN a x y n) = x := by
  rw [selX, nib2_wordXYN, regOfBits_bitsOfReg]
@[simp] theorem selY_wordXYN : selY (wordXYN a x y n) = y := by
  rw [selY, nib3_wordXYN, regOfBits_bitsOfReg]
@[simp] theorem countN_wordXYN : countN (wordXYN a x y n) = n.toFin := by
  rw [countN, nib4_wordXYN]
end XYN

/-- A word is its four nibbles (R72). -/
theorem toNat_eq_nibbles (w : Word) :
    w.toNat = 0x1000 * (nib1 w).toNat + 0x100 * (nib2 w).toNat + 0x10 * (nib3 w).toNat + (nib4 w).toNat := by
  rw [nib1_toNat, nib2_toNat, nib3_toNat, nib4_toNat]; omega

/-- One more pattern in front of a dispatch does not change how it rejects. -/
theorem rejects_ite {c : Prop} [Decidable c] {i : Instr} {r : Except DecodeError Instr} {e : DecodeError}
    (h : r = .error e ∨ ∃ j, r = .ok j) :
    (if c then .ok i else r) = .error e ∨ ∃ j, (if c then .ok i else r) = .ok j := by
  by_cases hc : c
  · exact .inr ⟨i, if_pos hc⟩
  · rwa [if_neg hc]

/-- The decoder rejects a word by that word's own name, or decodes it (R66). -/
theorem decode_total (w : Word) : decode w = .error (.illegalOpcode w) ∨ ∃ i, decode w = .ok i := by
  rw [decode]
  iterate 35 apply rejects_ite
  exact .inl rfl

end Sys2Proof
end

