-- ==== Sys2Proof/Laws/State.lean ====
section
/-! SUPPORT. One lemma per field per update of State, each true by rfl, and the reads of a register and a key after
an update. -/

namespace Sys2Proof.Machine.State

variable (s : State)

@[simp] theorem setReg_v (r : Reg) (b : Byte) : (s.setReg r b).v = s.v.set r.val b := rfl
@[simp] theorem setReg_pc (r : Reg) (b : Byte) : (s.setReg r b).pc = s.pc := rfl
@[simp] theorem setReg_index (r : Reg) (b : Byte) : (s.setReg r b).index = s.index := rfl
@[simp] theorem setReg_sp (r : Reg) (b : Byte) : (s.setReg r b).sp = s.sp := rfl
@[simp] theorem setReg_stk (r : Reg) (b : Byte) : (s.setReg r b).stk = s.stk := rfl
@[simp] theorem setReg_dt (r : Reg) (b : Byte) : (s.setReg r b).dt = s.dt := rfl
@[simp] theorem setReg_st (r : Reg) (b : Byte) : (s.setReg r b).st = s.st := rfl
@[simp] theorem setReg_phase (r : Reg) (b : Byte) : (s.setReg r b).phase = s.phase := rfl
@[simp] theorem setReg_key (r : Reg) (b : Byte) : (s.setReg r b).key = s.key := rfl
@[simp] theorem setReg_pix (r : Reg) (b : Byte) : (s.setReg r b).pix = s.pix := rfl
@[simp] theorem setReg_mem (r : Reg) (b : Byte) : (s.setReg r b).mem = s.mem := rfl
@[simp] theorem setReg_status (r : Reg) (b : Byte) : (s.setReg r b).status = s.status := rfl
@[simp] theorem setReg_config (r : Reg) (b : Byte) : (s.setReg r b).config = s.config := rfl
@[simp] theorem setReg_draws (r : Reg) (b : Byte) : (s.setReg r b).draws = s.draws := rfl

@[simp] theorem setRegs_v (x : Vector Byte 16) : (s.setRegs x).v = x := rfl
@[simp] theorem setRegs_pc (x : Vector Byte 16) : (s.setRegs x).pc = s.pc := rfl
@[simp] theorem setRegs_index (x : Vector Byte 16) : (s.setRegs x).index = s.index := rfl
@[simp] theorem setRegs_sp (x : Vector Byte 16) : (s.setRegs x).sp = s.sp := rfl
@[simp] theorem setRegs_stk (x : Vector Byte 16) : (s.setRegs x).stk = s.stk := rfl
@[simp] theorem setRegs_dt (x : Vector Byte 16) : (s.setRegs x).dt = s.dt := rfl
@[simp] theorem setRegs_st (x : Vector Byte 16) : (s.setRegs x).st = s.st := rfl
@[simp] theorem setRegs_phase (x : Vector Byte 16) : (s.setRegs x).phase = s.phase := rfl
@[simp] theorem setRegs_key (x : Vector Byte 16) : (s.setRegs x).key = s.key := rfl
@[simp] theorem setRegs_pix (x : Vector Byte 16) : (s.setRegs x).pix = s.pix := rfl
@[simp] theorem setRegs_mem (x : Vector Byte 16) : (s.setRegs x).mem = s.mem := rfl
@[simp] theorem setRegs_status (x : Vector Byte 16) : (s.setRegs x).status = s.status := rfl
@[simp] theorem setRegs_config (x : Vector Byte 16) : (s.setRegs x).config = s.config := rfl
@[simp] theorem setRegs_draws (x : Vector Byte 16) : (s.setRegs x).draws = s.draws := rfl

@[simp] theorem setPc_v (x : Word) : (s.setPc x).v = s.v := rfl
@[simp] theorem setPc_pc (x : Word) : (s.setPc x).pc = x := rfl
@[simp] theorem setPc_index (x : Word) : (s.setPc x).index = s.index := rfl
@[simp] theorem setPc_sp (x : Word) : (s.setPc x).sp = s.sp := rfl
@[simp] theorem setPc_stk (x : Word) : (s.setPc x).stk = s.stk := rfl
@[simp] theorem setPc_dt (x : Word) : (s.setPc x).dt = s.dt := rfl
@[simp] theorem setPc_st (x : Word) : (s.setPc x).st = s.st := rfl
@[simp] theorem setPc_phase (x : Word) : (s.setPc x).phase = s.phase := rfl
@[simp] theorem setPc_key (x : Word) : (s.setPc x).key = s.key := rfl
@[simp] theorem setPc_pix (x : Word) : (s.setPc x).pix = s.pix := rfl
@[simp] theorem setPc_mem (x : Word) : (s.setPc x).mem = s.mem := rfl
@[simp] theorem setPc_status (x : Word) : (s.setPc x).status = s.status := rfl
@[simp] theorem setPc_config (x : Word) : (s.setPc x).config = s.config := rfl
@[simp] theorem setPc_draws (x : Word) : (s.setPc x).draws = s.draws := rfl

@[simp] theorem setIndex_v (x : Word) : (s.setIndex x).v = s.v := rfl
@[simp] theorem setIndex_pc (x : Word) : (s.setIndex x).pc = s.pc := rfl
@[simp] theorem setIndex_index (x : Word) : (s.setIndex x).index = x := rfl
@[simp] theorem setIndex_sp (x : Word) : (s.setIndex x).sp = s.sp := rfl
@[simp] theorem setIndex_stk (x : Word) : (s.setIndex x).stk = s.stk := rfl
@[simp] theorem setIndex_dt (x : Word) : (s.setIndex x).dt = s.dt := rfl
@[simp] theorem setIndex_st (x : Word) : (s.setIndex x).st = s.st := rfl
@[simp] theorem setIndex_phase (x : Word) : (s.setIndex x).phase = s.phase := rfl
@[simp] theorem setIndex_key (x : Word) : (s.setIndex x).key = s.key := rfl
@[simp] theorem setIndex_pix (x : Word) : (s.setIndex x).pix = s.pix := rfl
@[simp] theorem setIndex_mem (x : Word) : (s.setIndex x).mem = s.mem := rfl
@[simp] theorem setIndex_status (x : Word) : (s.setIndex x).status = s.status := rfl
@[simp] theorem setIndex_config (x : Word) : (s.setIndex x).config = s.config := rfl
@[simp] theorem setIndex_draws (x : Word) : (s.setIndex x).draws = s.draws := rfl

@[simp] theorem setStack_v (n : Fin 17) (x : Vector Word 16) : (s.setStack n x).v = s.v := rfl
@[simp] theorem setStack_pc (n : Fin 17) (x : Vector Word 16) : (s.setStack n x).pc = s.pc := rfl
@[simp] theorem setStack_index (n : Fin 17) (x : Vector Word 16) : (s.setStack n x).index = s.index := rfl
@[simp] theorem setStack_sp (n : Fin 17) (x : Vector Word 16) : (s.setStack n x).sp = n := rfl
@[simp] theorem setStack_stk (n : Fin 17) (x : Vector Word 16) : (s.setStack n x).stk = x := rfl
@[simp] theorem setStack_dt (n : Fin 17) (x : Vector Word 16) : (s.setStack n x).dt = s.dt := rfl
@[simp] theorem setStack_st (n : Fin 17) (x : Vector Word 16) : (s.setStack n x).st = s.st := rfl
@[simp] theorem setStack_phase (n : Fin 17) (x : Vector Word 16) : (s.setStack n x).phase = s.phase := rfl
@[simp] theorem setStack_key (n : Fin 17) (x : Vector Word 16) : (s.setStack n x).key = s.key := rfl
@[simp] theorem setStack_pix (n : Fin 17) (x : Vector Word 16) : (s.setStack n x).pix = s.pix := rfl
@[simp] theorem setStack_mem (n : Fin 17) (x : Vector Word 16) : (s.setStack n x).mem = s.mem := rfl
@[simp] theorem setStack_status (n : Fin 17) (x : Vector Word 16) : (s.setStack n x).status = s.status := rfl
@[simp] theorem setStack_config (n : Fin 17) (x : Vector Word 16) : (s.setStack n x).config = s.config := rfl
@[simp] theorem setStack_draws (n : Fin 17) (x : Vector Word 16) : (s.setStack n x).draws = s.draws := rfl

@[simp] theorem setDt_v (x : Byte) : (s.setDt x).v = s.v := rfl
@[simp] theorem setDt_pc (x : Byte) : (s.setDt x).pc = s.pc := rfl
@[simp] theorem setDt_index (x : Byte) : (s.setDt x).index = s.index := rfl
@[simp] theorem setDt_sp (x : Byte) : (s.setDt x).sp = s.sp := rfl
@[simp] theorem setDt_stk (x : Byte) : (s.setDt x).stk = s.stk := rfl
@[simp] theorem setDt_dt (x : Byte) : (s.setDt x).dt = x := rfl
@[simp] theorem setDt_st (x : Byte) : (s.setDt x).st = s.st := rfl
@[simp] theorem setDt_phase (x : Byte) : (s.setDt x).phase = s.phase := rfl
@[simp] theorem setDt_key (x : Byte) : (s.setDt x).key = s.key := rfl
@[simp] theorem setDt_pix (x : Byte) : (s.setDt x).pix = s.pix := rfl
@[simp] theorem setDt_mem (x : Byte) : (s.setDt x).mem = s.mem := rfl
@[simp] theorem setDt_status (x : Byte) : (s.setDt x).status = s.status := rfl
@[simp] theorem setDt_config (x : Byte) : (s.setDt x).config = s.config := rfl
@[simp] theorem setDt_draws (x : Byte) : (s.setDt x).draws = s.draws := rfl

@[simp] theorem setSt_v (x : Byte) : (s.setSt x).v = s.v := rfl
@[simp] theorem setSt_pc (x : Byte) : (s.setSt x).pc = s.pc := rfl
@[simp] theorem setSt_index (x : Byte) : (s.setSt x).index = s.index := rfl
@[simp] theorem setSt_sp (x : Byte) : (s.setSt x).sp = s.sp := rfl
@[simp] theorem setSt_stk (x : Byte) : (s.setSt x).stk = s.stk := rfl
@[simp] theorem setSt_dt (x : Byte) : (s.setSt x).dt = s.dt := rfl
@[simp] theorem setSt_st (x : Byte) : (s.setSt x).st = x := rfl
@[simp] theorem setSt_phase (x : Byte) : (s.setSt x).phase = s.phase := rfl
@[simp] theorem setSt_key (x : Byte) : (s.setSt x).key = s.key := rfl
@[simp] theorem setSt_pix (x : Byte) : (s.setSt x).pix = s.pix := rfl
@[simp] theorem setSt_mem (x : Byte) : (s.setSt x).mem = s.mem := rfl
@[simp] theorem setSt_status (x : Byte) : (s.setSt x).status = s.status := rfl
@[simp] theorem setSt_config (x : Byte) : (s.setSt x).config = s.config := rfl
@[simp] theorem setSt_draws (x : Byte) : (s.setSt x).draws = s.draws := rfl

@[simp] theorem setPhase_v (x : Nat) : (s.setPhase x).v = s.v := rfl
@[simp] theorem setPhase_pc (x : Nat) : (s.setPhase x).pc = s.pc := rfl
@[simp] theorem setPhase_index (x : Nat) : (s.setPhase x).index = s.index := rfl
@[simp] theorem setPhase_sp (x : Nat) : (s.setPhase x).sp = s.sp := rfl
@[simp] theorem setPhase_stk (x : Nat) : (s.setPhase x).stk = s.stk := rfl
@[simp] theorem setPhase_dt (x : Nat) : (s.setPhase x).dt = s.dt := rfl
@[simp] theorem setPhase_st (x : Nat) : (s.setPhase x).st = s.st := rfl
@[simp] theorem setPhase_phase (x : Nat) : (s.setPhase x).phase = x := rfl
@[simp] theorem setPhase_key (x : Nat) : (s.setPhase x).key = s.key := rfl
@[simp] theorem setPhase_pix (x : Nat) : (s.setPhase x).pix = s.pix := rfl
@[simp] theorem setPhase_mem (x : Nat) : (s.setPhase x).mem = s.mem := rfl
@[simp] theorem setPhase_status (x : Nat) : (s.setPhase x).status = s.status := rfl
@[simp] theorem setPhase_config (x : Nat) : (s.setPhase x).config = s.config := rfl
@[simp] theorem setPhase_draws (x : Nat) : (s.setPhase x).draws = s.draws := rfl

@[simp] theorem setKey_v (k : Key) (x : KeyState) : (s.setKey k x).v = s.v := rfl
@[simp] theorem setKey_pc (k : Key) (x : KeyState) : (s.setKey k x).pc = s.pc := rfl
@[simp] theorem setKey_index (k : Key) (x : KeyState) : (s.setKey k x).index = s.index := rfl
@[simp] theorem setKey_sp (k : Key) (x : KeyState) : (s.setKey k x).sp = s.sp := rfl
@[simp] theorem setKey_stk (k : Key) (x : KeyState) : (s.setKey k x).stk = s.stk := rfl
@[simp] theorem setKey_dt (k : Key) (x : KeyState) : (s.setKey k x).dt = s.dt := rfl
@[simp] theorem setKey_st (k : Key) (x : KeyState) : (s.setKey k x).st = s.st := rfl
@[simp] theorem setKey_phase (k : Key) (x : KeyState) : (s.setKey k x).phase = s.phase := rfl
@[simp] theorem setKey_key (k : Key) (x : KeyState) : (s.setKey k x).key = s.key.set k.val x := rfl
@[simp] theorem setKey_pix (k : Key) (x : KeyState) : (s.setKey k x).pix = s.pix := rfl
@[simp] theorem setKey_mem (k : Key) (x : KeyState) : (s.setKey k x).mem = s.mem := rfl
@[simp] theorem setKey_status (k : Key) (x : KeyState) : (s.setKey k x).status = s.status := rfl
@[simp] theorem setKey_config (k : Key) (x : KeyState) : (s.setKey k x).config = s.config := rfl
@[simp] theorem setKey_draws (k : Key) (x : KeyState) : (s.setKey k x).draws = s.draws := rfl

@[simp] theorem setPix_v (x : Display) : (s.setPix x).v = s.v := rfl
@[simp] theorem setPix_pc (x : Display) : (s.setPix x).pc = s.pc := rfl
@[simp] theorem setPix_index (x : Display) : (s.setPix x).index = s.index := rfl
@[simp] theorem setPix_sp (x : Display) : (s.setPix x).sp = s.sp := rfl
@[simp] theorem setPix_stk (x : Display) : (s.setPix x).stk = s.stk := rfl
@[simp] theorem setPix_dt (x : Display) : (s.setPix x).dt = s.dt := rfl
@[simp] theorem setPix_st (x : Display) : (s.setPix x).st = s.st := rfl
@[simp] theorem setPix_phase (x : Display) : (s.setPix x).phase = s.phase := rfl
@[simp] theorem setPix_key (x : Display) : (s.setPix x).key = s.key := rfl
@[simp] theorem setPix_pix (x : Display) : (s.setPix x).pix = x := rfl
@[simp] theorem setPix_mem (x : Display) : (s.setPix x).mem = s.mem := rfl
@[simp] theorem setPix_status (x : Display) : (s.setPix x).status = s.status := rfl
@[simp] theorem setPix_config (x : Display) : (s.setPix x).config = s.config := rfl
@[simp] theorem setPix_draws (x : Display) : (s.setPix x).draws = s.draws := rfl

@[simp] theorem setMem_v (x : Memory) : (s.setMem x).v = s.v := rfl
@[simp] theorem setMem_pc (x : Memory) : (s.setMem x).pc = s.pc := rfl
@[simp] theorem setMem_index (x : Memory) : (s.setMem x).index = s.index := rfl
@[simp] theorem setMem_sp (x : Memory) : (s.setMem x).sp = s.sp := rfl
@[simp] theorem setMem_stk (x : Memory) : (s.setMem x).stk = s.stk := rfl
@[simp] theorem setMem_dt (x : Memory) : (s.setMem x).dt = s.dt := rfl
@[simp] theorem setMem_st (x : Memory) : (s.setMem x).st = s.st := rfl
@[simp] theorem setMem_phase (x : Memory) : (s.setMem x).phase = s.phase := rfl
@[simp] theorem setMem_key (x : Memory) : (s.setMem x).key = s.key := rfl
@[simp] theorem setMem_pix (x : Memory) : (s.setMem x).pix = s.pix := rfl
@[simp] theorem setMem_mem (x : Memory) : (s.setMem x).mem = x := rfl
@[simp] theorem setMem_status (x : Memory) : (s.setMem x).status = s.status := rfl
@[simp] theorem setMem_config (x : Memory) : (s.setMem x).config = s.config := rfl
@[simp] theorem setMem_draws (x : Memory) : (s.setMem x).draws = s.draws := rfl

@[simp] theorem setStatus_v (x : Status) : (s.setStatus x).v = s.v := rfl
@[simp] theorem setStatus_pc (x : Status) : (s.setStatus x).pc = s.pc := rfl
@[simp] theorem setStatus_index (x : Status) : (s.setStatus x).index = s.index := rfl
@[simp] theorem setStatus_sp (x : Status) : (s.setStatus x).sp = s.sp := rfl
@[simp] theorem setStatus_stk (x : Status) : (s.setStatus x).stk = s.stk := rfl
@[simp] theorem setStatus_dt (x : Status) : (s.setStatus x).dt = s.dt := rfl
@[simp] theorem setStatus_st (x : Status) : (s.setStatus x).st = s.st := rfl
@[simp] theorem setStatus_phase (x : Status) : (s.setStatus x).phase = s.phase := rfl
@[simp] theorem setStatus_key (x : Status) : (s.setStatus x).key = s.key := rfl
@[simp] theorem setStatus_pix (x : Status) : (s.setStatus x).pix = s.pix := rfl
@[simp] theorem setStatus_mem (x : Status) : (s.setStatus x).mem = s.mem := rfl
@[simp] theorem setStatus_status (x : Status) : (s.setStatus x).status = x := rfl
@[simp] theorem setStatus_config (x : Status) : (s.setStatus x).config = s.config := rfl
@[simp] theorem setStatus_draws (x : Status) : (s.setStatus x).draws = s.draws := rfl

@[simp] theorem setDraws_v (x : Nat) : (s.setDraws x).v = s.v := rfl
@[simp] theorem setDraws_pc (x : Nat) : (s.setDraws x).pc = s.pc := rfl
@[simp] theorem setDraws_index (x : Nat) : (s.setDraws x).index = s.index := rfl
@[simp] theorem setDraws_sp (x : Nat) : (s.setDraws x).sp = s.sp := rfl
@[simp] theorem setDraws_stk (x : Nat) : (s.setDraws x).stk = s.stk := rfl
@[simp] theorem setDraws_dt (x : Nat) : (s.setDraws x).dt = s.dt := rfl
@[simp] theorem setDraws_st (x : Nat) : (s.setDraws x).st = s.st := rfl
@[simp] theorem setDraws_phase (x : Nat) : (s.setDraws x).phase = s.phase := rfl
@[simp] theorem setDraws_key (x : Nat) : (s.setDraws x).key = s.key := rfl
@[simp] theorem setDraws_pix (x : Nat) : (s.setDraws x).pix = s.pix := rfl
@[simp] theorem setDraws_mem (x : Nat) : (s.setDraws x).mem = s.mem := rfl
@[simp] theorem setDraws_status (x : Nat) : (s.setDraws x).status = s.status := rfl
@[simp] theorem setDraws_config (x : Nat) : (s.setDraws x).config = s.config := rfl
@[simp] theorem setDraws_draws (x : Nat) : (s.setDraws x).draws = x := rfl

@[simp] theorem setReg_keyState (r : Reg) (b : Byte) (q : Key) : (s.setReg r b).keyState q = s.keyState q := rfl
@[simp] theorem setRegs_keyState (x : Vector Byte 16) (q : Key) : (s.setRegs x).keyState q = s.keyState q := rfl
@[simp] theorem setPc_reg (x : Word) (q : Reg) : (s.setPc x).reg q = s.reg q := rfl
@[simp] theorem setPc_keyState (x : Word) (q : Key) : (s.setPc x).keyState q = s.keyState q := rfl
@[simp] theorem setIndex_reg (x : Word) (q : Reg) : (s.setIndex x).reg q = s.reg q := rfl
@[simp] theorem setIndex_keyState (x : Word) (q : Key) : (s.setIndex x).keyState q = s.keyState q := rfl
@[simp] theorem setStack_reg (n : Fin 17) (x : Vector Word 16) (q : Reg) : (s.setStack n x).reg q = s.reg q := rfl
@[simp] theorem setStack_keyState (n : Fin 17) (x : Vector Word 16) (q : Key) : (s.setStack n x).keyState q = s.keyState q := rfl
@[simp] theorem setDt_reg (x : Byte) (q : Reg) : (s.setDt x).reg q = s.reg q := rfl
@[simp] theorem setDt_keyState (x : Byte) (q : Key) : (s.setDt x).keyState q = s.keyState q := rfl
@[simp] theorem setSt_reg (x : Byte) (q : Reg) : (s.setSt x).reg q = s.reg q := rfl
@[simp] theorem setSt_keyState (x : Byte) (q : Key) : (s.setSt x).keyState q = s.keyState q := rfl
@[simp] theorem setPhase_reg (x : Nat) (q : Reg) : (s.setPhase x).reg q = s.reg q := rfl
@[simp] theorem setPhase_keyState (x : Nat) (q : Key) : (s.setPhase x).keyState q = s.keyState q := rfl
@[simp] theorem setKey_reg (k : Key) (x : KeyState) (q : Reg) : (s.setKey k x).reg q = s.reg q := rfl
@[simp] theorem setPix_reg (x : Display) (q : Reg) : (s.setPix x).reg q = s.reg q := rfl
@[simp] theorem setPix_keyState (x : Display) (q : Key) : (s.setPix x).keyState q = s.keyState q := rfl
@[simp] theorem setMem_reg (x : Memory) (q : Reg) : (s.setMem x).reg q = s.reg q := rfl
@[simp] theorem setMem_keyState (x : Memory) (q : Key) : (s.setMem x).keyState q = s.keyState q := rfl
@[simp] theorem setStatus_reg (x : Status) (q : Reg) : (s.setStatus x).reg q = s.reg q := rfl
@[simp] theorem setStatus_keyState (x : Status) (q : Key) : (s.setStatus x).keyState q = s.keyState q := rfl
@[simp] theorem setDraws_reg (x : Nat) (q : Reg) : (s.setDraws x).reg q = s.reg q := rfl
@[simp] theorem setDraws_keyState (x : Nat) (q : Key) : (s.setDraws x).keyState q = s.keyState q := rfl

/-- A byte read is a read of memory under the machine's parameters. -/
@[simp] theorem byteAt_eq (a : Nat) : s.byteAt a = readByte s.config s.mem a := rfl
/-- A word read is a read of memory under the machine's parameters. -/
@[simp] theorem wordAt_eq (a : Nat) : s.wordAt a = readWord s.config s.mem a := rfl

@[simp] theorem setRegs_reg (x : Vector Byte 16) (q : Reg) : (s.setRegs x).reg q = x[q.val] := rfl

/-- A register reads as written, every other as before (10_state.md R10). -/
@[simp] theorem setReg_reg (r q : Reg) (b : Byte) : (s.setReg r b).reg q = if q = r then b else s.reg q := by
  have h : (r.val = q.val) = (q = r) := by rw [Fin.ext_iff]; exact propext eq_comm
  simp [reg, Vector.getElem_set, h]

/-- Writing `VF` is writing register 15. -/
theorem setFlag_eq (b : Byte) : s.setFlag b = s.setReg flagReg b := rfl

/-- A key reads as set, every other as before (44_keyboard.md R146). -/
@[simp] theorem setKey_keyState (k q : Key) (x : KeyState) :
    (s.setKey k x).keyState q = if q = k then x else s.keyState q := by
  have h : (k.val = q.val) = (q = k) := by rw [Fin.ext_iff]; exact propext eq_comm
  simp [keyState, Vector.getElem_set, h]

end Sys2Proof.Machine.State

namespace Sys2Proof.Machine

/-- The fetch advance moves `pc` and nothing else. -/
@[simp] theorem advance_eq (s : State) : advance s = s.setPc (s.pc + 2) := rfl

/-- `skip` moves `pc` by 2 when the condition holds, and nothing else (40_flow.md R82). -/
theorem skipIf_eq (c : Bool) (s : State) : skipIf c s = s.setPc (if c then s.pc + 2 else s.pc) := by
  cases c <;> rfl

/-- The rewind moves `pc` and nothing else (44_keyboard.md R150). -/
@[simp] theorem rewind_eq (s : State) : rewind s = s.setPc (s.pc - 2) := rfl

end Sys2Proof.Machine
end

