-- ==== Sys2Proof/Laws/Display.lean ====
section
/-! SUPPORT. What the pixel operations do, once (43_display.md R131, R132). -/

namespace Sys2Proof.Machine

@[simp] theorem Pixel.flip_flip (p : Pixel) : p.flip.flip = p := by cases p <;> rfl

@[simp] theorem rowOf_val (c : Config) (y : Nat) : (rowOf c y).val = y % c.displayH.val := rfl
@[simp] theorem colOf_val (c : Config) (x : Nat) : (colOf c x).val = x % c.displayW.val := rfl

/-- A row coordinate counts modulo the height. -/
@[simp] theorem rowOf_add (c : Config) (y : Nat) : rowOf c (y + c.displayH.val) = rowOf c y := by
  ext; simp

/-- A column coordinate counts modulo the width. -/
@[simp] theorem colOf_add (c : Config) (x : Nat) : colOf c (x + c.displayW.val) = colOf c x := by
  ext; simp

/-- A cell of the display reads as set, every other as before. -/
theorem cell_set (d : Display) (r q : Fin 32) (c e : Fin 64) (p : Pixel) :
    (d.set r.val (d[r.val].set c.val p))[q.val][e.val] = if e = c ∧ q = r then p else d[q.val][e.val] := by
  by_cases hr : q = r
  · subst hr
    by_cases hc : e = c
    · simp [hc]
    · have : c.val ≠ e.val := fun h => hc (Fin.ext h.symm)
      simp [hc, this]
  · have : r.val ≠ q.val := fun h => hr (Fin.ext h.symm)
    simp [hr, this]

/-- The pixel set reads as set, every other as before. -/
theorem getPixel_setPixel (c : Config) (d : Display) (x y : Nat) (p : Pixel) (a b : Nat) :
    getPixel c (setPixel c d x y p) a b =
      if colOf c a = colOf c x ∧ rowOf c b = rowOf c y then p else getPixel c d a b :=
  cell_set d (rowOf c y) (rowOf c b) (colOf c x) (colOf c a) p

@[simp] theorem getPixel_blank (c : Config) (x y : Nat) : getPixel c blankDisplay x y = .off := by
  simp [getPixel, blankDisplay]

end Sys2Proof.Machine
end

