-- ==== Sys2Proof/Laws/Memory.lean ====
section
/-! SUPPORT. What the memory operations do, once: a read after a store, the canonical form, and the two ascending
loops of `Dxyn`, `Fx33`, `Fx55`, `Fx65`. -/

namespace Sys2Proof.Machine

@[simp] theorem hardware_memSize : hardware.memSize = 4096 := rfl

variable {cf : Config}

/-- The 80 bytes from `FONT_BASE` up are the font (20_memory.md R48). -/
theorem resetByte_font (j : Nat) (h : j < 80) : resetByte cf (cf.fontBase.val + j) = cf.font[j] := by
  simp [resetByte, h]

/-- Every other byte is zero (20_memory.md R48). -/
theorem resetByte_zero (a : Nat) (h : a < cf.fontBase.val ∨ cf.fontBase.val + 80 ≤ a) : resetByte cf a = 0 := by
  rw [resetByte]
  split
  · have : ¬ a - cf.fontBase.val < 80 := by omega
    simp [this]
  · rfl

namespace Memory

@[simp] theorem lookup_nil (a : Nat) : lookup cf [] a = resetByte cf a := rfl

@[simp] theorem lookup_cons (k : Nat) (b : Byte) (m : Memory) (a : Nat) :
    lookup cf ((k, b) :: m) a = if k = a then b else lookup cf m a := rfl

theorem lookup_erase (m : Memory) (a c : Nat) :
    lookup cf (erase m a) c = if c = a then resetByte cf a else lookup cf m c := by
  induction m with
  | nil => by_cases h : c = a <;> simp [erase, h]
  | cons e m ih =>
    obtain ⟨k, b⟩ := e
    simp only [erase] at ih
    by_cases hk : k = a
    · by_cases hc : c = a
      · subst hc; simpa [erase, hk] using ih
      · simp [erase, hk, ih, hc, Ne.symm hc]
    · by_cases hc : c = a
      · subst hc; simpa [erase, hk] using ih
      · simp [erase, hk, ih, hc]

theorem lookup_insert (m : Memory) (a : Nat) (b : Byte) (c : Nat) (h : ∀ e ∈ m, e.1 ≠ a) :
    lookup cf (insert m a b) c = if c = a then b else lookup cf m c := by
  induction m with
  | nil => simp [insert, eq_comm]
  | cons e m ih =>
    obtain ⟨k, x⟩ := e
    have hk : k ≠ a := h (k, x) (by simp)
    have hm : ∀ e ∈ m, e.1 ≠ a := fun e he => h e (by simp [he])
    by_cases hlt : a < k
    · simp [insert, hlt, eq_comm]
    · by_cases hc : c = a
      · subst hc; simpa [insert, hlt, hk] using ih hm
      · simp [insert, hlt, ih hm, hc]

theorem erase_ne (m : Memory) (a : Nat) : ∀ e ∈ erase m a, e.1 ≠ a := by
  intro e he
  simp only [erase, List.mem_filter, bne_iff_ne] at he
  exact he.2

/-- A byte reads as stored, every other as before (20_memory.md R41, R42). -/
theorem lookup_store (m : Memory) (a : Nat) (b : Byte) (c : Nat) :
    lookup cf (store cf m a b) c = if c = a then b else lookup cf m c := by
  by_cases hb : b = resetByte cf a
  · simp [store, hb, lookup_erase]
  · rw [store, if_neg hb, lookup_insert _ _ _ _ (erase_ne m a), lookup_erase]
    by_cases hc : c = a <;> simp [hc]

theorem wf_erase {m : Memory} (h : wf cf m) (a : Nat) : wf cf (erase m a) :=
  ⟨h.1.filter _, fun c hc => h.2 c (List.mem_filter.1 hc).1⟩

theorem mem_insert {m : Memory} {a : Nat} {b : Byte} {c : Host.Cell} (h : c ∈ insert m a b) :
    c = (a, b) ∨ c ∈ m := by
  induction m with
  | nil => simpa [insert] using h
  | cons e m ih =>
    obtain ⟨k, x⟩ := e
    simp only [insert] at h
    split at h
    · simpa using h
    · rcases List.mem_cons.1 h with rfl | h
      · simp
      · rcases ih h with h | h <;> simp [h]

theorem wf_insert {m : Memory} (h : wf cf m) {a : Nat} {b : Byte} (hm : ∀ e ∈ m, e.1 ≠ a)
    (ha : a < cf.memSize) (hb : b ≠ resetByte cf a) : wf cf (insert m a b) := by
  refine ⟨?_, fun c hc => ?_⟩
  · have hs := h.1
    clear h
    induction m with
    | nil => simp [insert]
    | cons e m ih =>
      obtain ⟨k, x⟩ := e
      have hk : k ≠ a := hm (k, x) (by simp)
      have hm' : ∀ e ∈ m, e.1 ≠ a := fun e he => hm e (by simp [he])
      obtain ⟨h1, h2⟩ := List.pairwise_cons.1 hs
      simp only [insert]
      split
      next hlt =>
        refine List.pairwise_cons.2 ⟨fun c hc => ?_, hs⟩
        rcases List.mem_cons.1 hc with rfl | hc
        · exact hlt
        · exact lt_trans hlt (h1 c hc)
      next hlt =>
        refine List.pairwise_cons.2 ⟨fun c hc => ?_, ih hm' h2⟩
        rcases mem_insert hc with rfl | hc
        · exact lt_of_le_of_ne (not_lt.1 hlt) hk
        · exact h1 c hc
  · rcases mem_insert hc with rfl | hc
    · exact ⟨ha, hb⟩
    · exact h.2 c hc

/-- A store into memory keeps the canonical form. -/
theorem wf_store {m : Memory} (h : wf cf m) {a : Nat} (b : Byte) (ha : a < cf.memSize) : wf cf (store cf m a b) := by
  rw [store]
  split
  · exact wf_erase h a
  next hb => exact wf_insert (wf_erase h a) (erase_ne m a) ha hb

end Memory

/-- When a byte can be read, and what it is. -/
theorem readByte_eq_ok {m : Memory} {a : Nat} {b : Byte} :
    readByte cf m a = .ok b ↔ a < cf.memSize ∧ Memory.lookup cf m a = b := by
  rw [readByte]
  split <;> simp_all

/-- When a byte can be written, and the memory after. -/
theorem writeByte_eq_ok {m m' : Memory} {a : Nat} {b : Byte} :
    writeByte cf m a b = .ok m' ↔ a < cf.memSize ∧ Memory.store cf m a b = m' := by
  rw [writeByte]
  split <;> simp_all

/-- When a word can be read, and what it is (20_memory.md R43). -/
theorem readWord_eq_ok {m : Memory} {a : Nat} {w : Word} :
    readWord cf m a = .ok w ↔
      a + 1 < cf.memSize ∧ wordOfBytes (Memory.lookup cf m a) (Memory.lookup cf m (a + 1)) = w := by
  simp only [readWord, readByte]
  by_cases h1 : a < cf.memSize <;> by_cases h2 : a + 1 < cf.memSize <;> simp [h1, h2]
  omega

/-- The ascending read loop, whole: the bytes it reads, and the abort at the first address outside memory
(20_memory.md R45, R57). -/
theorem readUpTo_eq (m : Memory) (a n : Nat) :
    readUpTo cf m a n = ((List.range (min n (cf.memSize - a))).map (fun k => Memory.lookup cf m (a + k)),
      if n = 0 ∨ a + n ≤ cf.memSize then none else some (.memOutOfRange (max a cf.memSize))) := by
  induction n generalizing a with
  | zero => simp [readUpTo]
  | succ n ih =>
    by_cases ha : a < cf.memSize
    · rw [readUpTo, readByte, if_pos ha, ih (a + 1),
        show min (n + 1) (cf.memSize - a) = min n (cf.memSize - (a + 1)) + 1 by omega]
      refine Prod.ext ?_ ?_
      · simp [List.range_succ_eq_map, Nat.add_assoc, Nat.add_comm 1, Function.comp_def]
      · by_cases h : a + (n + 1) ≤ cf.memSize
        · simp only [if_pos (show n = 0 ∨ a + 1 + n ≤ cf.memSize by omega),
            if_pos (show n + 1 = 0 ∨ a + (n + 1) ≤ cf.memSize from .inr h)]
        · simp only [if_neg (show ¬ (n = 0 ∨ a + 1 + n ≤ cf.memSize) by omega),
            if_neg (show ¬ (n + 1 = 0 ∨ a + (n + 1) ≤ cf.memSize) by omega),
            show max (a + 1) cf.memSize = max a cf.memSize by omega]
    · rw [readUpTo, readByte, if_neg ha, if_neg (by omega), show cf.memSize - a = 0 by omega, Nat.min_zero,
        Nat.max_eq_left (by omega)]
      rfl

/-- A read access whose last address is in memory. -/
theorem readBytes_ok (m : Memory) (a n : Nat) (h : a + n ≤ cf.memSize) :
    readBytes cf m a n = .ok ((List.range n).map (fun k => Memory.lookup cf m (a + k))) := by
  rw [readBytes, readUpTo_eq, if_pos (.inr h), show min n (cf.memSize - a) = n by omega]
  rfl

/-- A read access that leaves memory aborts at the first address outside (20_memory.md R45, R57). -/
theorem readBytes_error (m : Memory) (a n : Nat) (hn : 0 < n) (h : cf.memSize < a + n) :
    readBytes cf m a n = .error (.memOutOfRange (max a cf.memSize)) := by
  rw [readBytes, readUpTo_eq, if_neg (by omega)]
  rfl

/-- The ascending write loop, whole: what every byte reads as after it, the abort at the first address outside memory
with the bytes below it stored, and the canonical form (20_memory.md R45, R57). -/
theorem writeUpTo_spec (m : Memory) (a : Nat) (bs : List Byte) :
    (∀ c, Memory.lookup cf (writeUpTo cf m a bs).1 c =
      if a ≤ c ∧ c < a + bs.length ∧ c < cf.memSize then bs.getD (c - a) 0 else Memory.lookup cf m c) ∧
    (writeUpTo cf m a bs).2 = (if bs.length = 0 ∨ a + bs.length ≤ cf.memSize then none
      else some (.memOutOfRange (max a cf.memSize))) ∧
    (Memory.wf cf m → Memory.wf cf (writeUpTo cf m a bs).1) := by
  induction bs generalizing m a with
  | nil => exact ⟨fun c => by rw [if_neg (by rw [List.length_nil]; omega)]; rfl, rfl, id⟩
  | cons b bs ih =>
    simp only [List.length_cons]
    by_cases ha : a < cf.memSize
    · obtain ⟨h1, h2, h3⟩ := ih (Memory.store cf m a b) (a + 1)
      rw [writeUpTo, writeByte, if_pos ha]
      refine ⟨fun c => ?_, ?_, fun hw => h3 (Memory.wf_store hw b ha)⟩
      · show Memory.lookup cf (writeUpTo cf (Memory.store cf m a b) (a + 1) bs).1 c = _
        rw [h1 c, Memory.lookup_store]
        rcases Nat.lt_trichotomy c a with hc | rfl | hc
        · rw [if_neg (by omega), if_neg (by omega), if_neg (by omega)]
        · rw [if_neg (by omega), if_pos rfl, if_pos (by omega)]
          simp
        · by_cases hin : c < a + (bs.length + 1) ∧ c < cf.memSize
          · rw [if_pos (by omega), if_pos (by omega)]
            obtain ⟨d, rfl⟩ : ∃ d, c = a + 1 + d := ⟨c - (a + 1), by omega⟩
            rw [show a + 1 + d - (a + 1) = d by omega, show a + 1 + d - a = d + 1 by omega]
            simp
          · rw [if_neg (by omega), if_neg (by omega), if_neg (by omega)]
      · show (writeUpTo cf (Memory.store cf m a b) (a + 1) bs).2 = _
        rw [h2]
        by_cases h : a + (bs.length + 1) ≤ cf.memSize
        · rw [if_pos (by omega), if_pos (by omega)]
        · rw [if_neg (by omega), if_neg (by omega), show max (a + 1) cf.memSize = max a cf.memSize by omega]
    · rw [writeUpTo, writeByte, if_neg ha]
      exact ⟨fun c => by rw [if_neg (by omega)],
        by rw [if_neg (by omega), show max a cf.memSize = a by omega], id⟩

/-- A write access whose last address is in memory succeeds, and what every byte reads as after it. -/
theorem writeBytes_ok (m : Memory) (a : Nat) (bs : List Byte) (h : a + bs.length ≤ cf.memSize) :
    ∃ m', writeBytes cf m a bs = .ok m' ∧
      (∀ c, Memory.lookup cf m' c = if a ≤ c ∧ c < a + bs.length then bs.getD (c - a) 0 else Memory.lookup cf m c) ∧
      (Memory.wf cf m → Memory.wf cf m') := by
  obtain ⟨h1, h2, h3⟩ := writeUpTo_spec (cf := cf) m a bs
  refine ⟨(writeUpTo cf m a bs).1, ?_, fun c => ?_, h3⟩
  · rw [if_pos (.inr h)] at h2
    rw [writeBytes, ← Prod.eta (writeUpTo cf m a bs), h2]
    rfl
  · rw [h1 c]
    exact if_congr (by omega) rfl rfl

/-- A write access that leaves memory aborts at the first address outside (20_memory.md R45, R57). -/
theorem writeBytes_error (m : Memory) (a : Nat) (bs : List Byte) (hn : 0 < bs.length)
    (h : cf.memSize < a + bs.length) :
    writeBytes cf m a bs = .error (.memOutOfRange (max a cf.memSize)) := by
  have h2 := (writeUpTo_spec (cf := cf) m a bs).2.1
  rw [if_neg (by omega)] at h2
  rw [writeBytes, ← Prod.eta (writeUpTo cf m a bs), h2]
  rfl

/-- The ROM copy: what every byte reads as, and the canonical form. -/
theorem loadImage_spec (m : Memory) (a : Nat) (bs : List Byte) :
    (∀ c, Memory.lookup cf (loadImage cf m a bs) c =
      if a ≤ c ∧ c < a + bs.length then bs.getD (c - a) 0 else Memory.lookup cf m c) ∧
    (Memory.wf cf m → a + bs.length ≤ cf.memSize → Memory.wf cf (loadImage cf m a bs)) := by
  induction bs generalizing a with
  | nil => exact ⟨fun c => by rw [if_neg (by simp)]; rfl, fun h _ => h⟩
  | cons b bs ih =>
    obtain ⟨h1, h2⟩ := ih (a + 1)
    refine ⟨fun c => ?_, fun hw hl => ?_⟩
    · rw [loadImage, Memory.lookup_store, h1 c, List.length_cons]
      rcases Nat.lt_trichotomy c a with hc | rfl | hc
      · rw [if_neg (by omega), if_neg (by omega), if_neg (by omega)]
      · rw [if_pos rfl, if_pos (by omega)]
        simp
      · by_cases hin : c < a + (bs.length + 1)
        · rw [if_neg (by omega), if_pos (by omega), if_pos (by omega)]
          obtain ⟨d, rfl⟩ : ∃ d, c = a + 1 + d := ⟨c - (a + 1), by omega⟩
          rw [show a + 1 + d - (a + 1) = d by omega, show a + 1 + d - a = d + 1 by omega]
          simp
        · rw [if_neg (by omega), if_neg (by omega), if_neg (by omega)]
    · simp only [List.length_cons] at hl
      exact Memory.wf_store (h2 hw (by omega)) b (by omega)

end Sys2Proof.Machine
end

