-- ==== Sys2Proof/Laws/Operands.lean ====
section
/-! SUPPORT. What the stack operations, the register loops and the range-checked operands do, once. -/

namespace Sys2Proof.Machine

/-- A push on a stack with room, and on a full one (40_flow.md R80). -/
theorem push_cases (v : Word) (s : State) :
    (s.sp.val < s.config.stackDepth.val ∧
      ∃ h : s.sp.val < 16, push v s = .ok (s.setStack ⟨s.sp.val + 1, Nat.succ_lt_succ h⟩ (s.stk.set s.sp.val v))) ∨
    (s.config.stackDepth.val ≤ s.sp.val ∧ push v s = .error (.stackOverflow v)) := by
  by_cases h : s.sp.val < s.config.stackDepth.val
  · exact .inl ⟨h, Nat.lt_of_lt_of_le h s.config.stackDepth.le, by rw [push, dif_pos h]⟩
  · exact .inr ⟨Nat.not_lt.1 h, by rw [push, dif_neg h]⟩

/-- A pull from a stack that holds something, and from an empty one (40_flow.md R81). -/
theorem pull_cases (s : State) :
    (∃ h : 0 < s.sp.val,
      pull s = .ok (s.stk[s.sp.val - 1]'(by omega), s.setStack ⟨s.sp.val - 1, by omega⟩ s.stk)) ∨
    (s.sp.val = 0 ∧ pull s = .error .stackUnderflow) := by
  by_cases h : 0 < s.sp.val
  · exact .inl ⟨h, by rw [pull, if_pos h]⟩
  · exact .inr ⟨by omega, by rw [pull, if_neg h]⟩

/-- What a completed push leaves (40_flow.md R80). -/
theorem push_ok {v : Word} {s t : State} (h : push v s = .ok t) :
    s.sp.val < s.config.stackDepth.val ∧
      ∃ h : s.sp.val < 16, t = s.setStack ⟨s.sp.val + 1, Nat.succ_lt_succ h⟩ (s.stk.set s.sp.val v) := by
  rcases push_cases v s with ⟨hd, hs, e⟩ | ⟨_, e⟩ <;> rw [e] at h <;> cases h
  exact ⟨hd, hs, rfl⟩

/-- What a completed pull gives and leaves (40_flow.md R81). -/
theorem pull_ok {s t : State} {v : Word} (h : pull s = .ok (v, t)) :
    ∃ h : 0 < s.sp.val, v = s.stk[s.sp.val - 1]'(by omega) ∧ t = s.setStack ⟨s.sp.val - 1, by omega⟩ s.stk := by
  rcases pull_cases s with ⟨hs, e⟩ | ⟨_, e⟩ <;> rw [e] at h <;> cases h
  exact ⟨hs, rfl, rfl⟩

/-- The register load loop: the loaded registers take the bytes in order, every other is as before (42_index_memory.md R125). -/
theorem loadRegsFrom_getElem (v : Vector Byte 16) (k : Nat) (bs : List Byte) (j : Nat) (hj : j < 16) :
    (loadRegsFrom v k bs)[j] = if k ≤ j ∧ j < k + bs.length then bs.getD (j - k) 0 else v[j] := by
  induction bs generalizing v k with
  | nil => rw [if_neg (by simp)]; rfl
  | cons b bs ih =>
    rw [loadRegsFrom, ih, List.length_cons]
    rcases Nat.lt_trichotomy j k with h | rfl | h
    · rw [if_neg (by omega), if_neg (by omega), Vector.getElem_setIfInBounds_ne _ (by omega)]
    · rw [if_neg (by omega), if_pos (by omega), Vector.getElem_setIfInBounds_self]
      simp
    · by_cases hin : j < k + (bs.length + 1)
      · rw [if_pos (by omega), if_pos (by omega)]
        obtain ⟨d, rfl⟩ : ∃ d, j = k + 1 + d := ⟨j - (k + 1), by omega⟩
        rw [show k + 1 + d - (k + 1) = d by omega, show k + 1 + d - k = d + 1 by omega]
        simp
      · rw [if_neg (by omega), if_neg (by omega), Vector.getElem_setIfInBounds_ne _ (by omega)]

@[simp] theorem regsUpTo_length (s : State) (x : Reg) : (regsUpTo s x).length = x.val + 1 := by
  simp [regsUpTo]

/-- `Fx55` stores `V[k]` at offset `k` (42_index_memory.md R124). -/
theorem regsUpTo_getD (s : State) (x : Reg) (k : Nat) (hk : k ≤ x.val) :
    (regsUpTo s x).getD k 0 = s.reg ⟨k, by omega⟩ := by
  have h : k < (regsUpTo s x).length := by rw [regsUpTo_length]; omega
  rw [List.getD_eq_getElem _ _ h]
  simp [regsUpTo, State.reg]

/-- The key operand is the whole of the register, or an abort (44_keyboard.md R148). -/
theorem keyOperand_cases (b : Byte) :
    (∃ h : b.toNat < 16, keyOperand b = .ok ⟨b.toNat, h⟩) ∨
    (16 ≤ b.toNat ∧ keyOperand b = .error (.keyOutOfRange b)) := by
  by_cases h : b.toNat < 16
  · exact .inl ⟨h, by rw [keyOperand, dif_pos h]⟩
  · exact .inr ⟨by omega, by rw [keyOperand, dif_neg h]⟩

/-- The glyph operand is the whole of the register, or an abort (42_index_memory.md R122). -/
theorem glyphOperand_cases (b : Byte) :
    (b.toNat < 16 ∧ glyphOperand b = .ok b.toNat) ∨
    (16 ≤ b.toNat ∧ glyphOperand b = .error (.glyphOutOfRange b)) := by
  by_cases h : b.toNat < 16
  · exact .inl ⟨h, by rw [glyphOperand, if_pos h]⟩
  · exact .inr ⟨by omega, by rw [glyphOperand, if_neg h]⟩

@[simp] theorem effAddr_zero (s : State) : effAddr s 0 = s.index.toNat := rfl

@[simp] theorem zextAddr_toNat (nnn : Addr) : (zextAddr nnn).toNat = nnn.toNat := by
  simp [zextAddr]; omega

@[simp] theorem zextByte_toNat (b : Byte) : (zextByte b).toNat = b.toNat := by
  simp [zextByte]; omega

end Sys2Proof.Machine
end

