-- ==== Sys2Proof/Laws/PerInstr.lean ====
section
/-! SUPPORT. Facts about every instruction as syntax, one lemma per constructor. -/

namespace Sys2Proof.Laws.MajorNibble

/-- The major opcode of an instruction (30_encoding.md R61, R65). -/
def major : Instr → Nibble
  | .cls => 0x0
  | .ret => 0x0
  | .sys _ => 0x0
  | .jp _ => 0x1
  | .call _ => 0x2
  | .seImm _ _ => 0x3
  | .sneImm _ _ => 0x4
  | .seReg _ _ => 0x5
  | .ldImm _ _ => 0x6
  | .addImm _ _ => 0x7
  | .ldReg _ _ => 0x8
  | .orReg _ _ => 0x8
  | .andReg _ _ => 0x8
  | .xorReg _ _ => 0x8
  | .addReg _ _ => 0x8
  | .subReg _ _ => 0x8
  | .shr _ _ => 0x8
  | .subnReg _ _ => 0x8
  | .shl _ _ => 0x8
  | .sneReg _ _ => 0x9
  | .ldI _ => 0xA
  | .jpV0 _ => 0xB
  | .rnd _ _ => 0xC
  | .drw _ _ _ => 0xD
  | .skp _ => 0xE
  | .sknp _ => 0xE
  | .ldVxDt _ => 0xF
  | .ldVxK _ => 0xF
  | .ldDtVx _ => 0xF
  | .ldStVx _ => 0xF
  | .addI _ => 0xF
  | .ldF _ => 0xF
  | .ldB _ => 0xF
  | .storeRegs _ => 0xF
  | .loadRegs _ => 0xF

/-- The first nibble of an instruction's word is its major opcode. -/
def Statement (i : Instr) : Prop := nib1 (encode i) = major i

theorem cls : Statement .cls := rfl
theorem ret : Statement .ret := rfl
theorem sys (nnn : Addr) : Statement (.sys nnn) := nib1_wordNNN _ _
theorem jp (nnn : Addr) : Statement (.jp nnn) := nib1_wordNNN _ _
theorem call (nnn : Addr) : Statement (.call nnn) := nib1_wordNNN _ _
theorem seImm (x : Reg) (kk : Byte) : Statement (.seImm x kk) := nib1_wordXKK _ _ _
theorem sneImm (x : Reg) (kk : Byte) : Statement (.sneImm x kk) := nib1_wordXKK _ _ _
theorem seReg (x : Reg) (y : Reg) : Statement (.seReg x y) := nib1_wordXYN _ _ _ _
theorem ldImm (x : Reg) (kk : Byte) : Statement (.ldImm x kk) := nib1_wordXKK _ _ _
theorem addImm (x : Reg) (kk : Byte) : Statement (.addImm x kk) := nib1_wordXKK _ _ _
theorem ldReg (x : Reg) (y : Reg) : Statement (.ldReg x y) := nib1_wordXYN _ _ _ _
theorem orReg (x : Reg) (y : Reg) : Statement (.orReg x y) := nib1_wordXYN _ _ _ _
theorem andReg (x : Reg) (y : Reg) : Statement (.andReg x y) := nib1_wordXYN _ _ _ _
theorem xorReg (x : Reg) (y : Reg) : Statement (.xorReg x y) := nib1_wordXYN _ _ _ _
theorem addReg (x : Reg) (y : Reg) : Statement (.addReg x y) := nib1_wordXYN _ _ _ _
theorem subReg (x : Reg) (y : Reg) : Statement (.subReg x y) := nib1_wordXYN _ _ _ _
theorem shr (x : Reg) (y : Reg) : Statement (.shr x y) := nib1_wordXYN _ _ _ _
theorem subnReg (x : Reg) (y : Reg) : Statement (.subnReg x y) := nib1_wordXYN _ _ _ _
theorem shl (x : Reg) (y : Reg) : Statement (.shl x y) := nib1_wordXYN _ _ _ _
theorem sneReg (x : Reg) (y : Reg) : Statement (.sneReg x y) := nib1_wordXYN _ _ _ _
theorem ldI (nnn : Addr) : Statement (.ldI nnn) := nib1_wordNNN _ _
theorem jpV0 (nnn : Addr) : Statement (.jpV0 nnn) := nib1_wordNNN _ _
theorem rnd (x : Reg) (kk : Byte) : Statement (.rnd x kk) := nib1_wordXKK _ _ _
theorem drw (x : Reg) (y : Reg) (n : Fin 16) : Statement (.drw x y n) := nib1_wordXYN _ _ _ _
theorem skp (x : Reg) : Statement (.skp x) := nib1_wordXKK _ _ _
theorem sknp (x : Reg) : Statement (.sknp x) := nib1_wordXKK _ _ _
theorem ldVxDt (x : Reg) : Statement (.ldVxDt x) := nib1_wordXKK _ _ _
theorem ldVxK (x : Reg) : Statement (.ldVxK x) := nib1_wordXKK _ _ _
theorem ldDtVx (x : Reg) : Statement (.ldDtVx x) := nib1_wordXKK _ _ _
theorem ldStVx (x : Reg) : Statement (.ldStVx x) := nib1_wordXKK _ _ _
theorem addI (x : Reg) : Statement (.addI x) := nib1_wordXKK _ _ _
theorem ldF (x : Reg) : Statement (.ldF x) := nib1_wordXKK _ _ _
theorem ldB (x : Reg) : Statement (.ldB x) := nib1_wordXKK _ _ _
theorem storeRegs (x : Reg) : Statement (.storeRegs x) := nib1_wordXKK _ _ _
theorem loadRegs (x : Reg) : Statement (.loadRegs x) := nib1_wordXKK _ _ _

end Sys2Proof.Laws.MajorNibble
end

