-- ==== Sys2Proof/Laws/Step.lean ====
section
/-! SUPPORT. What a step can do, once: every claim about steps goes through these two lemmas. -/

namespace Sys2Proof.Machine

@[simp] theorem finish_ok (s : State) : finish (.ok s) = .next s := rfl
@[simp] theorem finish_error (f : Fault) : finish (.error f) = .fault f := rfl
@[simp] theorem abort_eq (f : Fault) : abort f = .fault f := rfl

/-- The step of a running machine whose fetch and decode succeed is its instruction's meaning on the advanced state. -/
theorem step_eq_exec {s : State} {w : Word} {i : Instr} (hr : s.status = .running) (hf : fetch s = .ok w)
    (hd : decode w = .ok i) : step s = exec i (s.setPc (s.pc + 2)) := by
  simp only [step, hr, hf, hd, advance_eq]

/-- Every way a step can go (60_exceptions.md R171). -/
theorem step_cases (s : State) :
    (s.status = .aborted ∧ step s = .refused .machineAborted) ∨
    (s.status = .running ∧ ∃ f, fetch s = .error f ∧ step s = .fault f) ∨
    (s.status = .running ∧ ∃ w, fetch s = .ok w ∧ decode w = .error (.illegalOpcode w) ∧
      step s = .fault (.illegalOpcode w s.pc)) ∨
    (s.status = .running ∧ ∃ w i, fetch s = .ok w ∧ decode w = .ok i ∧
      step s = exec i (s.setPc (s.pc + 2))) := by
  cases hs : s.status with
  | aborted => exact .inl ⟨rfl, by simp only [step, hs]⟩
  | running =>
    refine .inr ?_
    cases hf : fetch s with
    | error f => exact .inl ⟨rfl, f, rfl, by simp only [step, hs, hf, abort_eq]⟩
    | ok w =>
      refine .inr ?_
      cases hd : decode w with
      | error e =>
        have he : e = .illegalOpcode w := by
          rcases decode_total w with h | ⟨i, h⟩ <;> rw [h] at hd <;> cases hd
          rfl
        exact .inl ⟨rfl, w, rfl, by rw [hd, he], by simp only [step, hs, hf, hd, abort_eq]⟩
      | ok i => exact .inr ⟨rfl, w, i, rfl, hd, by simp only [step, hs, hf, hd, advance_eq]⟩

/-- A step that completes ran the instruction it fetched (10_state.md R14). -/
theorem step_next {s t : State} (h : step s = .next t) :
    ∃ w i, s.status = .running ∧ fetch s = .ok w ∧ decode w = .ok i ∧ exec i (s.setPc (s.pc + 2)) = .next t := by
  rcases step_cases s with ⟨_, e⟩ | ⟨_, f, _, e⟩ | ⟨_, w, _, _, e⟩ | ⟨hr, w, i, hf, hd, e⟩
  · rw [e] at h; cases h
  · rw [e] at h; cases h
  · rw [e] at h; cases h
  · exact ⟨w, i, hr, hf, hd, e ▸ h⟩

/-- A fetch succeeds where both its bytes are in memory; elsewhere it aborts at the first bad address (20_memory.md R43,
R45). -/
theorem fetch_cases (s : State) :
    (s.pc.toNat + 2 ≤ s.config.memSize ∧ ∃ w, fetch s = .ok w) ∨
    (s.config.memSize < s.pc.toNat + 2 ∧ fetch s = .error (.memOutOfRange (max s.pc.toNat s.config.memSize))) := by
  have ok (a : Nat) (h : a < s.config.memSize) : readByte s.config s.mem a = .ok (Memory.lookup s.config s.mem a) :=
    if_pos h
  have bad (a : Nat) (h : s.config.memSize ≤ a) : readByte s.config s.mem a = .error (.memOutOfRange a) :=
    if_neg (Nat.not_lt.2 h)
  by_cases h1 : s.pc.toNat + 1 < s.config.memSize
  · exact .inl ⟨by omega, _, readWord_eq_ok.2 ⟨h1, rfl⟩⟩
  · refine .inr ⟨by omega, ?_⟩
    by_cases h2 : s.pc.toNat < s.config.memSize
    · simp only [fetch, State.wordAt_eq, readWord, ok _ h2, bad (s.pc.toNat + 1) (by omega)]
      rw [show s.pc.toNat + 1 = max s.pc.toNat s.config.memSize by omega]
    · simp only [fetch, State.wordAt_eq, readWord, bad s.pc.toNat (by omega)]
      rw [show max s.pc.toNat s.config.memSize = s.pc.toNat by omega]

@[simp] theorem runSteps_zero (s : State) : runSteps 0 s = .next s := rfl

/-- A run of any core after its first step, whichever way that step went. -/
theorem coreRun_succ (M : Host.Core) (n : Nat) (s : M.State) (o : Host.Outcome M.State M.Fault M.Refusal)
    (h : M.step s = o) :
    M.run (n + 1) s = match o with
      | .next t => M.run n t
      | .fault f => .fault f
      | .refused r => .refused r := by
  cases o <;> simp only [Host.Core.run, h]

/-- One step first, then the rest. -/
theorem runSteps_succ (n : Nat) (s : State) :
    runSteps (n + 1) s = match step s with
      | .next t => runSteps n t
      | .fault f => .fault f
      | .refused r => .refused r := by
  cases e : step s <;> exact coreRun_succ Sys2Proof.core n s _ e

/-- What every completing step preserves, a completing run preserves. -/
theorem runSteps_induction {P : State → Prop} (hs : ∀ s t, step s = .next t → P s → P t) {n : Nat} {s t : State}
    (h : runSteps n s = .next t) (hp : P s) : P t := by
  induction n generalizing s with
  | zero => cases h; exact hp
  | succ n ih =>
    rw [runSteps_succ] at h
    cases e : step s with
    | next u => rw [e] at h; exact ih h (hs s u e hp)
    | fault f => rw [e] at h; cases h
    | refused r => rw [e] at h; cases h

/-- What an aborting instruction leaves alone: all but memory and the registers (60_exceptions.md R169). -/
theorem leftByInstr_rest (i : Instr) (s : State) :
    ∃ m v, leftByInstr i s = (s.setMem m).setRegs v := by
  refine ⟨(leftByInstr i s).mem, (leftByInstr i s).v, ?_⟩
  cases i <;> rfl

/-- What an aborting step leaves alone: all but `pc`, memory and the registers (60_exceptions.md R169). -/
theorem leftByStep_rest (s : State) : ∃ p m v, leftByStep s = ((s.setPc p).setMem m).setRegs v := by
  rw [leftByStep]
  split
  · exact ⟨s.pc, s.mem, s.v, rfl⟩
  · split
    · exact ⟨s.pc + 2, s.mem, s.v, rfl⟩
    · next i _ =>
      obtain ⟨m, v, h⟩ := leftByInstr_rest i (advance s)
      exact ⟨s.pc + 2, m, v, h⟩

/-- What holds before a run, is kept by every completing step and by what an aborting step leaves, holds of what the run
leaves. -/
theorem leftBySteps_induction {P : State → Prop} (hs : ∀ s t, step s = .next t → P s → P t)
    (hl : ∀ s, P s → P (leftByStep s)) (n : Nat) {s : State} (hp : P s) : P (leftBySteps n s) := by
  induction n generalizing s with
  | zero => exact hp
  | succ n ih =>
    rw [leftBySteps]
    split
    next t e => exact ih (hs s t e hp)
    next => exact hl s hp
    next => exact hp

/-- The timer count is a subtraction that stops at zero (60_exceptions.md R176). -/
theorem countDown_toNat (c : Byte) : (countDown c).toNat = c.toNat - 1 := by
  rw [countDown]
  split
  next h => rw [h]; rfl
  next h =>
    have hc : c.toNat ≠ 0 := fun e => h (BitVec.eq_of_toNat_eq e)
    rw [BitVec.toNat_sub]
    have := c.isLt
    show (2 ^ 8 - 1 + c.toNat) % 2 ^ 8 = _
    omega

/-- The samples of a batch in closed form (60_exceptions.md R179). -/
theorem waveFrom_eq (sounding : Bool) (k n q : Nat) :
    waveFrom sounding k n q =
      ((List.range n).map (fun j => (k + j, if sounding then q + j else q)), if sounding then q + n else q) := by
  induction n generalizing k q with
  | zero => simp [waveFrom]
  | succ n ih =>
    rw [waveFrom, ih, List.range_succ_eq_map]
    cases sounding <;> simp [Function.comp_def, Nat.add_comm, Nat.add_left_comm]

end Sys2Proof.Machine
end

