-- ==== Sys2Proof/Tests/Slice0.lean ====
section
/-! SUPPORT. The model's own tests. Expected values come from the spec's encodings (30_encoding.md R65) and its vectors
(95_test_vectors.md, cited by their ids), never from the model. The last part holds, for each statement with hypotheses,
witnesses that meet them. -/

namespace Sys2Proof.Tests

open Sys2Proof.Machine

/-! ## Helpers -/

/-- The machine after reset, with one instruction word where it fetches next. -/
def boot (w : Nat) : State := State.reset.withFetchWord 16 w

/-- The state after one step, if it completes. -/
def after (s : State) : Option State :=
  match step s with
  | .next t => some t
  | _ => none

/-- The cause of the abort of one step, if it aborts. -/
def cause (s : State) : Option Fault :=
  match step s with
  | .fault f => some f
  | _ => none

/-- A byte of memory as a number. -/
def byteAt (t : State) (a : Nat) : Nat := (Memory.lookup t.config t.mem a).toNat

/-- `pc` after one step. -/
def pcAfter (s : State) : Option Word := (after s).map (fun t => t.pc)

/-- A register and `VF` after one step. -/
def regAndFlag (x : Reg) (s : State) : Option (Byte × Byte) := (after s).map (fun t => (t.reg x, t.reg 15))

/-! ## Well-formedness: the terms the check refuses (30_encoding.md R64) -/

theorem test_sys_of_cls_is_ill_formed : (Instr.sys 0x0E0).wf = false := by decide
theorem test_sys_of_ret_is_ill_formed : (Instr.sys 0x0EE).wf = false := by decide
theorem test_sys_beside_them_is_well_formed : (Instr.sys 0x0E1).wf = true := by decide

/-! ## Decoding: a word of every pattern (30_encoding.md R65) -/

theorem test_decode_cls : decode 0x00E0 = .ok .cls := by rfl
theorem test_decode_ret : decode 0x00EE = .ok .ret := by rfl
theorem test_decode_sys : decode 0x0123 = .ok (.sys 0x123) := by rfl
theorem test_decode_jp : decode 0x1ABC = .ok (.jp 0xABC) := by rfl
theorem test_decode_call : decode 0x2300 = .ok (.call 0x300) := by rfl
theorem test_decode_seImm : decode 0x3A05 = .ok (.seImm 0xA 0x05) := by rfl
theorem test_decode_sneImm : decode 0x4B06 = .ok (.sneImm 0xB 0x06) := by rfl
theorem test_decode_seReg : decode 0x5340 = .ok (.seReg 3 4) := by rfl
theorem test_decode_ldImm : decode 0x61AB = .ok (.ldImm 1 0xAB) := by rfl
theorem test_decode_addImm : decode 0x7105 = .ok (.addImm 1 0x05) := by rfl
theorem test_decode_ldReg : decode 0x8120 = .ok (.ldReg 1 2) := by rfl
theorem test_decode_orReg : decode 0x8121 = .ok (.orReg 1 2) := by rfl
theorem test_decode_andReg : decode 0x8122 = .ok (.andReg 1 2) := by rfl
theorem test_decode_xorReg : decode 0x8123 = .ok (.xorReg 1 2) := by rfl
theorem test_decode_addReg : decode 0x8124 = .ok (.addReg 1 2) := by rfl
theorem test_decode_subReg : decode 0x8125 = .ok (.subReg 1 2) := by rfl
theorem test_decode_shr : decode 0x8AB6 = .ok (.shr 0xA 0xB) := by rfl
theorem test_decode_subnReg : decode 0x8127 = .ok (.subnReg 1 2) := by rfl
theorem test_decode_shl : decode 0x812E = .ok (.shl 1 2) := by rfl
theorem test_decode_sneReg : decode 0x9120 = .ok (.sneReg 1 2) := by rfl
theorem test_decode_ldI : decode 0xA200 = .ok (.ldI 0x200) := by rfl
theorem test_decode_jpV0 : decode 0xBFFF = .ok (.jpV0 0xFFF) := by rfl
theorem test_decode_rnd : decode 0xC30F = .ok (.rnd 3 0x0F) := by rfl
theorem test_decode_drw : decode 0xD5A3 = .ok (.drw 5 0xA 3) := by rfl
theorem test_decode_skp : decode 0xE29E = .ok (.skp 2) := by rfl
theorem test_decode_sknp : decode 0xE2A1 = .ok (.sknp 2) := by rfl
theorem test_decode_ldVxDt : decode 0xF307 = .ok (.ldVxDt 3) := by rfl
theorem test_decode_ldVxK : decode 0xF30A = .ok (.ldVxK 3) := by rfl
theorem test_decode_ldDtVx : decode 0xF115 = .ok (.ldDtVx 1) := by rfl
theorem test_decode_ldStVx : decode 0xF118 = .ok (.ldStVx 1) := by rfl
theorem test_decode_addI : decode 0xF11E = .ok (.addI 1) := by rfl
theorem test_decode_ldF : decode 0xF129 = .ok (.ldF 1) := by rfl
theorem test_decode_ldB : decode 0xF133 = .ok (.ldB 1) := by rfl
theorem test_decode_storeRegs : decode 0xF255 = .ok (.storeRegs 2) := by rfl
theorem test_decode_loadRegs : decode 0xF265 = .ok (.loadRegs 2) := by rfl

/-- Vector E1: words of no instruction. -/
theorem test_decode_rejects :
    ∀ w ∈ [(0x5011 : Word), 0x8008, 0x800F, 0x9001, 0xE000, 0xE09F, 0xF000, 0xF0FF, 0xFFFF],
      decode w = .error (.illegalOpcode w) := by
  intro w hw
  simp only [List.mem_cons, List.not_mem_nil, or_false] at hw
  rcases hw with rfl | rfl | rfl | rfl | rfl | rfl | rfl | rfl | rfl <;> rfl

theorem test_decode_truncated : decodeBytes [0x60] = .error .truncated := by rfl
theorem test_decodeBytes_big_endian : decodeBytes [0x60, 0x05, 0x70] = .ok (.ldImm 0 5, [0x70]) := by rfl
theorem test_decodeTableWord : decodeTableWord 16 0x8124 = some (.addReg 1 2) := by rfl
/-- The worked example S4 of the source. -/
theorem test_fields : (nib1 0xD5A3, selX 0xD5A3, selY 0xD5A3, countN 0xD5A3, fieldNnn 0xD5A3, fieldKk 0xD5A3) =
    (0xD, 5, 0xA, 3, 0x5A3, 0xA3) := by decide
theorem test_encode : encode (.drw 5 0xA 3) = 0xD5A3 ∧ encode (.shl 1 2) = 0x812E := by decide
/-- Rows of 30_encoding.md R68. -/
theorem test_assembly : assembly (.ldImm 0xA 5) = "LD VA, 0x05" ∧ assembly (.storeRegs 2) = "LD [I], V2" := by decide

/-! ## Flow: one step -/

/-- Vectors F2, E2. -/
theorem test_sys : step (boot 0x0123) = .next (advance (boot 0x0123)) := by rfl
/-- Vector F7, at another address. -/
theorem test_ret : (after ((boot 0x00EE).setStack 1 (Vector.replicate 16 0x302))).map (fun t => (t.pc, t.sp)) =
    some (0x302, 0) := by decide
/-- Vector F8. -/
theorem test_ret_empty : cause (boot 0x00EE) = some .stackUnderflow := by decide
/-- Vector F5. -/
theorem test_jp : pcAfter (boot 0x1203) = some 0x203 := by decide
/-- Vector F6. -/
theorem test_call : (after (boot 0x2300)).map (fun t => (t.pc, t.sp, t.stk[0])) = some (0x300, 1, 0x202) := by decide
/-- Vector F10. -/
theorem test_call_full : cause ((boot 0x2200).setStack 16 (Vector.replicate 16 0x202)) =
    some (.stackOverflow 0x202) := by decide
/-- Vectors F11, F12. -/
theorem test_seImm : (pcAfter ((boot 0x3005).setReg 0 5), pcAfter ((boot 0x3006).setReg 0 5)) =
    (some 0x204, some 0x202) := by decide
/-- Vectors F13, F14. -/
theorem test_sneImm : (pcAfter ((boot 0x4005).setReg 0 5), pcAfter ((boot 0x4006).setReg 0 5)) =
    (some 0x202, some 0x204) := by decide
/-- Vectors F15, F16. -/
theorem test_seReg : (pcAfter (((boot 0x5010).setReg 0 5).setReg 1 5), pcAfter (((boot 0x5010).setReg 0 5).setReg 1 1)) =
    (some 0x204, some 0x202) := by decide
/-- Vectors F19, F18. -/
theorem test_sneReg : (pcAfter (((boot 0x9010).setReg 0 5).setReg 1 5), pcAfter (((boot 0x9010).setReg 0 5).setReg 1 1)) =
    (some 0x202, some 0x204) := by decide
/-- Vector F22: no reduction to 12 bits. -/
theorem test_jpV0 : pcAfter ((boot 0xBFFF).setReg 0 0xFF) = some 0x10FE := by decide

/-! ## Alu: one step -/

/-- Vector A1. -/
theorem test_ldImm : regAndFlag 1 (boot 0x61AB) = some (0xAB, 0) := by decide
/-- Vectors A3, A5. -/
theorem test_addImm : (regAndFlag 1 ((boot 0x7105).setReg 1 0xFE), regAndFlag 15 ((boot 0x7F02).setReg 15 0xFF)) =
    (some (3, 0), some (1, 1)) := by decide
/-- Vector A6. -/
theorem test_ldReg : regAndFlag 1 ((boot 0x8120).setReg 2 0x7B) = some (0x7B, 0) := by decide
/-- Vector A7. -/
theorem test_orReg : regAndFlag 1 ((((boot 0x8121).setReg 1 0xF0).setReg 2 0x0F).setReg 15 1) = some (0xFF, 1) := by decide
/-- Vector A8. -/
theorem test_andReg : regAndFlag 1 ((((boot 0x8122).setReg 1 0xF3).setReg 2 0x3F).setReg 15 1) = some (0x33, 1) := by decide
/-- Vector A9. -/
theorem test_xorReg : regAndFlag 1 ((((boot 0x8123).setReg 1 0xFF).setReg 2 0x0F).setReg 15 1) = some (0xF0, 1) := by decide
/-- Vector A13. -/
theorem test_addReg : regAndFlag 1 (((boot 0x8124).setReg 1 0xFF).setReg 2 0xFF) = some (0xFE, 1) := by decide
/-- Vector A31: the sum is lost. -/
theorem test_addReg_vf : regAndFlag 15 (((boot 0x8F14).setReg 15 0xF0).setReg 1 0x20) = some (1, 1) := by decide
/-- Vector A16: a borrow sets `VF`. -/
theorem test_subReg : regAndFlag 1 (((boot 0x8125).setReg 1 3).setReg 2 5) = some (0xFE, 1) := by decide
/-- Vector A40: the old `VF` is the operand. -/
theorem test_subReg_from_vf : regAndFlag 0 ((boot 0x80F5).setReg 15 1) = some (0xFF, 1) := by decide
/-- Vector E3: `y` is ignored. -/
theorem test_shr : (after (((boot 0x8AB6).setReg 0xA 3).setReg 0xB 0x80)).map
    (fun t => (t.reg 0xA, t.reg 15, t.reg 0xB)) = some (1, 1, 0x80) := by decide
/-- Vector A34. -/
theorem test_shr_vf : regAndFlag 15 ((boot 0x8F06).setReg 15 0xFF) = some (0, 0) := by decide
/-- Vector A24. -/
theorem test_subnReg : regAndFlag 1 (((boot 0x8127).setReg 1 5).setReg 2 3) = some (0xFE, 1) := by decide
/-- Vector A33. -/
theorem test_subnReg_vf : regAndFlag 15 (((boot 0x8F17).setReg 15 3).setReg 1 5) = some (0, 0) := by decide
/-- Vector A25. -/
theorem test_shl : regAndFlag 1 ((boot 0x810E).setReg 1 0x81) = some (2, 1) := by decide
/-- Vector A35. -/
theorem test_shl_vf : regAndFlag 15 ((boot 0x8F0E).setReg 15 0xFF) = some (2, 2) := by decide
/-- Vector A30, whatever the draw. -/
theorem test_rnd : (after (boot 0xC500)).map (fun t => t.reg 5) = some 0 := by
  show some (Config.drawByte 0 &&& 0#8) = some 0#8
  rw [BitVec.and_zero]

/-! ## Index and memory: one step -/

/-- Vector X2. -/
theorem test_ldI : (after (boot 0xAFFF)).map (fun t => t.index) = some 0xFFF := by decide
/-- Vectors X5, X4. -/
theorem test_addI : ((after (((boot 0xF01E).setIndex 0xFFFF).setReg 0 2)).map (fun t => t.index),
    (after (((boot 0xF01E).setIndex 0xFFF).setReg 0 1)).map (fun t => (t.index, t.reg 15))) =
    (some 1, some (0x1000, 0)) := by decide
/-- Vector X8. -/
theorem test_ldF : (after ((boot 0xF029).setReg 0 0xF)).map (fun t => t.index) = some 0x4B := by decide
/-- Vector X9. -/
theorem test_ldF_out_of_range : cause ((boot 0xF029).setReg 0 0x10) = some (.glyphOutOfRange 0x10) := by decide
/-- Vector X10. -/
theorem test_ldB : (after (((boot 0xF033).setIndex 0x300).setReg 0 156)).map
    (fun t => (byteAt t 0x300, byteAt t 0x301, byteAt t 0x302, t.index)) = some (1, 5, 6, 0x300) := by decide
/-- Vector X14. -/
theorem test_ldB_out_of_range : cause (((boot 0xF033).setIndex 0xFFE).setReg 0 0xFF) =
    some (.memOutOfRange 0x1000) := by decide
/-- Vector X15. -/
theorem test_storeRegs :
    (after ((((((boot 0xF255).setIndex 0x300).setReg 0 0x11).setReg 1 0x22).setReg 2 0x33).setReg 3 0x44)).map
      (fun t => (byteAt t 0x300, byteAt t 0x301, byteAt t 0x302, byteAt t 0x303)) = some (0x11, 0x22, 0x33, 0) := by
  decide
/-- Vector X17. -/
theorem test_storeRegs_out_of_range : cause ((boot 0xF255).setIndex 0xFFE) = some (.memOutOfRange 0x1000) := by decide
/-- Vector X20, its second step. -/
theorem test_loadRegs : (after ((boot 0xF265).setIndex 0x200)).map
    (fun t => (t.reg 0, t.reg 1, t.reg 2, t.reg 3, t.index)) = some (0xF2, 0x65, 0, 0, 0x200) := by decide
/-- Vector X21. -/
theorem test_loadRegs_out_of_range : cause ((boot 0xF065).setIndex 0x1000) = some (.memOutOfRange 0x1000) := by decide

/-! ## Display: one step -/

/-- Vector G1v. -/
theorem test_cls : (after ((boot 0x00E0).setPix (setPixel hardware blankDisplay 5 7 .on))).map
    (fun t => getPixel t.config t.pix 5 7) = some .off := by decide
/-- Vector G6v with the byte F0 of the font's first row (20_memory.md R50): four pixels, the last two wrapped. -/
theorem test_drw : (after (((boot 0xD011).setReg 0 62).setReg 1 31)).map
    (fun t => (getPixel t.config t.pix 62 31, getPixel t.config t.pix 1 31, getPixel t.config t.pix 2 31, t.reg 15)) =
      some (.on, .on, .off, 0) := by decide
/-- Vector G2v: column 7 is not drawn. -/
theorem test_drw_seven_columns : (after ((boot 0xD001).setMem (Memory.store hardware (boot 0xD001).mem 0 1))).map
    (fun t => (getPixel t.config t.pix 7 0, t.reg 15)) = some (.off, 0) := by decide

/-! ## Keyboard and timers: one step -/

/-- Vectors K1, K2. -/
theorem test_skp : (pcAfter (((boot 0xE09E).setReg 0 7).setKey 7 .pressed), pcAfter ((boot 0xE09E).setReg 0 7)) =
    (some 0x204, some 0x202) := by decide
/-- Vector K5. -/
theorem test_skp_out_of_range : cause ((boot 0xE09E).setReg 0 0x10) = some (.keyOutOfRange 0x10) := by decide
/-- Vectors K3, K4. -/
theorem test_sknp : (pcAfter (((boot 0xE0A1).setReg 0 7).setKey 7 .pressed), pcAfter ((boot 0xE0A1).setReg 0 7)) =
    (some 0x202, some 0x204) := by decide
/-- Vector K6. -/
theorem test_sknp_out_of_range : cause ((boot 0xE0A1).setReg 0 0xFF) = some (.keyOutOfRange 0xFF) := by decide
/-- Vector K8. -/
theorem test_ldVxK : (after (((boot 0xF30A).setKey 0xB .pressed).setKey 4 .pressed)).map (fun t => (t.reg 3, t.pc)) =
    some (4, 0x202) := by decide
/-- Vector K7. -/
theorem test_ldVxK_waits : pcAfter (boot 0xF30A) = some 0x200 := by decide
/-- Vector M1. -/
theorem test_ldVxDt : (after ((boot 0xF307).setDt 0x2A)).map (fun t => (t.reg 3, t.dt)) = some (0x2A, 0x2A) := by decide
/-- Vector M2. -/
theorem test_ldDtVx : (after ((boot 0xF015).setReg 0 0xFF)).map (fun t => (t.dt, t.st)) = some (0xFF, 0) := by decide
/-- Vector M2. -/
theorem test_ldStVx : (after ((boot 0xF018).setReg 0 0xFF)).map (fun t => (t.dt, t.st)) = some (0, 0xFF) := by decide

/-! ## The machine -/

/-- Vector E5: the low byte of the fetch lies outside memory. -/
theorem test_fetch_out_of_range : cause (State.reset.setPc 0xFFF) = some (.memOutOfRange 0x1000) := by decide
/-- Vector E10. -/
theorem test_illegal_at_end : cause ((State.reset.setPc 0xFFE).withFetchWord 16 0x8008) =
    some (.illegalOpcode 0x8008 0xFFE) := by decide
/-- Vectors M4, M6. -/
theorem test_timerUpdate : ((timerUpdate (State.reset.setSt 9)).st,
    (timerUpdate { State.reset.setSt 5 with config := { hardware with soundTied := false } }).st) = (0, 4) := by decide
/-- Vector M7. -/
theorem test_frame_zero : frame 0 (State.reset.setDt 3) = .next ((State.reset.setDt 2).setSt 2) := by rfl
/-- Vector Z1: the font and the ROM in memory. -/
theorem test_reset_memory : (byteAt State.reset 0, byteAt State.reset 1, byteAt State.reset 0x4B, byteAt State.reset 0x4F,
    byteAt State.reset 0x50) = (0xF0, 0x90, 0xF0, 0x80, 0) := by decide

/-- The rows of 20_memory.md R50 for the digits 1, 7 and E: the last two at 0x023 and 0x046. -/
theorem test_font : (hardware.font.toList.drop 0x05).take 5 = [0x20, 0x60, 0x20, 0x20, 0x70] ∧
    (hardware.font.toList.drop 0x23).take 5 = [0xF0, 0x10, 0x20, 0x40, 0x40] ∧
    (hardware.font.toList.drop 0x46).take 5 = [0xF0, 0x80, 0xF0, 0x80, 0xF0] := by decide
/-- A machine with another font holds it after RESET, and so does its glyph memory. -/
theorem test_other_font : (match resetRom { hardware with font := Vector.replicate 80 0x55 } [] 0 with
    | .next t => byteAt t 0x4F + byteAt t 0x50
    | _ => 0) = 0x55 := by decide
/-- A machine with other parameters: 1 KiB of memory, a stack of one slot, a display of 8 by 16. -/
def other : Config :=
  { hardware with
    memSize := 1024, stackDepth := ⟨1, by decide, by decide⟩, displayW := ⟨8, by decide, by decide⟩,
    displayH := ⟨16, by decide, by decide⟩ }
/-- Its `STACK_DEPTH` and `MEM_SIZE` bound a push and an access (40_flow.md R80, 20_memory.md R45). -/
theorem test_other_bounds : (cause { (boot 0x2300).setStack 1 (Vector.replicate 16 0x202) with config := other },
    cause { (boot 0xF065).setIndex 1024 with config := other }) =
      (some (.stackOverflow 0x202), some (.memOutOfRange 1024)) := by decide
/-- Its display wraps at its own width and height (43_display.md R131). -/
theorem test_other_display : getPixel other (setPixel other blankDisplay 9 17 .on) 1 1 = .on := by decide
/-- Vector X17 read through 60_exceptions.md R169: the bytes below the offending address are stored, `pc` is advanced.
A check of the kept state only; no statement rests on it (log 3). -/
theorem test_left_by_store : (fun t : State => (byteAt t 0xFFE, byteAt t 0xFFF, t.pc))
    (leftByStep ((((boot 0xF255).setIndex 0xFFE).setReg 0 0x11).setReg 1 0x22)) = (0x11, 0x22, 0x202) := by decide
/-- The same for `Fx65`: `V[0]` is loaded, `V[1]` is not. -/
theorem test_left_by_load : (fun t : State => (t.reg 0, t.reg 1, t.pc))
    (leftByStep ((((boot 0xF165).setIndex 0xFFF).setReg 0 9).setReg 1 9)) = (0, 9, 0x202) := by decide
/-- 60_exceptions.md R169: in a frame the steps before the abort are done, a fetch abort leaves `pc`, and there is no
timer update. -/
theorem test_left_by_frame : (fun t : State => (t.pc, t.dt, t.status))
    (transact (.frame 9) (((State.reset.setPc 0xFFE).withFetchWord 16 0x0123).setDt 3)).2 = (0x1000, 3, .aborted) := by
  decide
/-- 60_exceptions.md R182: RESET does not take the random source back. -/
theorem test_reset_keeps_draws : (transact (.reset hardware [0x60, 0x05]) (State.reset.setDraws 7)).2.draws = 7 := by
  rfl

/-! ## Witnesses: states and operands that meet a statement's hypotheses -/

/-- ResetBuildsTheStatedMachine: the longest ROM that fits and the shortest that does not; the last byte of the font, the
byte after it, the last byte before a ROM and the first after one of two bytes. -/
theorem witness_rom_lengths :
    (List.replicate 3584 (0xAB : Byte)).length ≤ hardware.memSize - hardware.progBase.toNat ∧
    hardware.memSize - hardware.progBase.toNat < (List.replicate 3585 (0xAB : Byte)).length ∧
    (0x4F < hardware.progBase.toNat ∧ 0x4F = hardware.fontBase.val + (79 : Fin 80).val) ∧
    (∀ j : Fin 80, 0x50 ≠ hardware.fontBase.val + j.val) ∧
    (0x1FF < hardware.memSize ∧ 0x1FF < hardware.progBase.toNat) ∧
    (0x202 < hardware.memSize ∧ hardware.progBase.toNat + ([0x60, 0x05] : List Byte).length ≤ 0x202) := by
  rw [List.length_replicate, List.length_replicate]
  decide

/-- StepRunsTheDecodedInstruction. -/
theorem witness_step_runs : (boot 0x6105).status = .running ∧ (boot 0x6105).byteAt 0x200 = .ok 0x61 ∧
    (boot 0x6105).byteAt 0x201 = .ok 0x05 ∧ decode (wordOfBytes 0x61 0x05) = .ok (.ldImm 1 5) ∧
    (Instr.ldImm 1 5).wf = true := ⟨rfl, rfl, rfl, rfl, rfl⟩

/-- StepAbortsInFetchThenDecodeOrder: the first address past a fetch, and the last within one. -/
theorem witness_step_aborts : (State.reset.setPc 0xFFF).status = .running ∧
    (State.reset.setPc 0xFFF).config.memSize < (State.reset.setPc 0xFFF).pc.toNat + 2 ∧
    ((State.reset.setPc 0xFFE).withFetchWord 16 0x8008).status = .running ∧
    ((State.reset.setPc 0xFFE).withFetchWord 16 0x8008).wordAt 0xFFE = .ok 0x8008 ∧
    ∀ i, decode 0x8008 ≠ .ok i := by
  refine ⟨rfl, by decide, rfl, rfl, fun i h => ?_⟩
  rw [show decode 0x8008 = .error (.illegalOpcode 0x8008) from rfl] at h
  cases h

/-- EveryAbortHasItsListedCause: a step that ends in each listed cause. -/
theorem witness_aborts :
    step (boot 0x8008) = .fault (.illegalOpcode 0x8008 0x200) ∧
    step ((boot 0x2200).setStack 16 (Vector.replicate 16 0x202)) = .fault (.stackOverflow 0x202) ∧
    step (boot 0x00EE) = .fault .stackUnderflow ∧
    step (State.reset.setPc 0x10FE) = .fault (.memOutOfRange 0x10FE) ∧
    step ((boot 0xD002).setIndex 0xFFF) = .fault (.memOutOfRange 0x1000) ∧
    step ((boot 0xF033).setIndex 0xFFE) = .fault (.memOutOfRange 0x1000) ∧
    step ((boot 0xF255).setIndex 0xFFE) = .fault (.memOutOfRange 0x1000) ∧
    step ((boot 0xF065).setIndex 0x1001) = .fault (.memOutOfRange 0x1001) ∧
    step ((boot 0xE09E).setReg 0 16) = .fault (.keyOutOfRange 16) ∧
    step ((boot 0xF029).setReg 0 16) = .fault (.glyphOutOfRange 16) :=
  ⟨rfl, rfl, rfl, rfl, rfl, rfl, rfl, rfl, rfl, rfl⟩

/-- AbortLatchesUntilReset: an abort, the state it leaves, another transaction on it, a ROM that fits. -/
theorem witness_abort_latches :
    transact .step (boot 0x8008) = (.aborted (.illegalOpcode 0x8008 0x200), (advance (boot 0x8008)).setStatus .aborted) ∧
    ((advance (boot 0x8008)).setStatus .aborted).status = .aborted ∧ (∀ c rom, Transaction.wave ≠ .reset c rom) ∧
    ([0x60, 0x05] : List Byte).length ≤ maxRomLength hardware :=
  ⟨rfl, rfl, (fun _ _ h => by cases h), by decide⟩

/-- EncodeOfDecodeIsTheWord, DecodeOfEncodeIsTheInstruction. -/
theorem witness_decodes : decode 0x8AB6 = .ok (.shr 0xA 0xB) ∧ (Instr.shr 0xA 0xB).wf = true := ⟨rfl, rfl⟩

/-- ByteWriteSetsOneAddress: both ends of memory. -/
theorem witness_addresses : 0 < hardware.memSize ∧ 4095 < hardware.memSize ∧ ¬ 4096 < hardware.memSize := by decide

/-- WordReadIsBigEndian: both ends of memory. -/
theorem witness_word_read :
    readByte hardware State.reset.mem 0 = .ok 0xF0 ∧ readByte hardware State.reset.mem 1 = .ok 0x90 ∧
    readByte hardware State.reset.mem 4094 = .ok 0 ∧ readByte hardware State.reset.mem (4094 + 1) = .ok 0 :=
  ⟨rfl, rfl, rfl, rfl⟩

/-- CanonicalMemoriesReadingAlikeAreEqual: canonical memories, one of them written and written back. -/
theorem witness_canonical : Memory.wf hardware [(0x300, 5)] ∧
    Memory.wf hardware (Memory.store hardware (Memory.store hardware [(0x300, 5)] 1 7) 1 0x90) ∧
    ∀ a, readByte hardware [(0x300, 5)] a =
      readByte hardware (Memory.store hardware (Memory.store hardware [(0x300, 5)] 1 7) 1 0x90) a := by
  refine ⟨by decide, by decide, fun a => ?_⟩
  rw [show Memory.store hardware (Memory.store hardware [(0x300, 5)] 1 7) 1 0x90 = [(0x300, 5)] by decide]

/-- NextFetchSeesStoredRegisters: the last two registers, stored at the end of memory. -/
theorem witness_next_fetch : (∃ t, exec (.storeRegs 15) (State.reset.setIndex 0xFF0) = .next t) ∧
    (15 : Reg).val = (14 : Reg).val + 1 ∧ (15 : Reg) ≤ 15 := ⟨⟨_, rfl⟩, rfl, le_refl _⟩

/-- InvariantHoldsAfterReset. -/
theorem witness_reset : ∃ t, resetRom hardware [0x60, 0x05] 3 = .next t := ⟨_, rfl⟩

/-- A state at the edge of the invariant, with a full stack of the highest return address. -/
def edge : State := ((State.reset.setPc 0xFFE).withFetchWord 16 0x00EE).setStack 16 (Vector.replicate 16 0x1000)

/-- StepKeepsTheInvariant: the edge state meets it and completes a step. -/
theorem witness_invariant : edge.Inv ∧ ∃ t, step edge = .next t :=
  ⟨⟨by decide, by decide, by decide, by decide⟩, ⟨_, rfl⟩⟩

/-- TransactionsKeepTheInvariant: a transaction that leaves the machine running. -/
theorem witness_running_transaction : edge.Inv ∧ (transact .step edge).2.status = .running :=
  ⟨⟨by decide, by decide, by decide, by decide⟩, rfl⟩

/-- NothingReseedsTheRandomSource, OnlyTwoInstructionsChangeMemory, RegistersHaveTheirListedWriters,
SpecialStateHasItsListedWriters: an instruction that completes and is none of the excepted ones, and a draw. -/
theorem witness_writers : (∃ t, exec (.jp 0x300) State.reset = .next t) ∧
    (∃ t, exec (.rnd 3 0x0F) State.reset = .next t) ∧ ¬ mayWriteReg (.jp 0x300) 15 ∧
    (∀ x, Instr.jp 0x300 ≠ .ldB x) ∧ (∀ x, Instr.jp 0x300 ≠ .storeRegs x) ∧ (∀ nnn, Instr.jp 0x300 ≠ .ldI nnn) ∧
    (∀ x kk, Instr.jp 0x300 ≠ .rnd x kk) ∧ (∀ x, Instr.jp 0x300 ≠ .addI x) ∧ (∀ x, Instr.jp 0x300 ≠ .ldF x) ∧
    (∀ nnn, Instr.jp 0x300 ≠ .call nnn) ∧ Instr.jp 0x300 ≠ .ret ∧ (∀ x, Instr.jp 0x300 ≠ .ldDtVx x) ∧
    (∀ x, Instr.jp 0x300 ≠ .ldStVx x) ∧ Instr.jp 0x300 ≠ .cls ∧ (∀ x y n, Instr.jp 0x300 ≠ .drw x y n) := by
  refine ⟨⟨_, rfl⟩, ⟨_, rfl⟩, id, ?_⟩
  simp

/-- SelfJumpIsTerminal: the reset vector and the last address of a fetch. -/
theorem witness_terminal : (boot 0x1200).Terminal ∧ ((State.reset.setPc 0xFFE).withFetchWord 16 0x1FFE).Terminal :=
  ⟨⟨rfl, by decide, rfl⟩, ⟨rfl, by decide, rfl⟩⟩

/-- PushThenPullIsLastInFirstOut, RetPullsThePc, CallPushesAndJumps: the stack empty, with one entry, with one slot
left, full. -/
theorem witness_stack_depths : State.reset.sp.val = 0 ∧ State.reset.sp.val = (0 : Fin 16).val ∧
    (0 : Fin 16).val < State.reset.config.stackDepth.val ∧
    (State.reset.setStack 1 (Vector.replicate 16 0x202)).sp.val = (0 : Fin 16).val + 1 ∧
    (State.reset.setStack 15 (Vector.replicate 16 0x202)).sp.val = (15 : Fin 16).val ∧
    (15 : Fin 16).val < (State.reset.setStack 15 (Vector.replicate 16 0x202)).config.stackDepth.val ∧
    (State.reset.setStack 16 (Vector.replicate 16 0x202)).sp.val = (15 : Fin 16).val + 1 ∧
    (State.reset.setStack 16 (Vector.replicate 16 0x202)).config.stackDepth.val ≤
      (State.reset.setStack 16 (Vector.replicate 16 0x202)).sp.val := by decide

/-- FrameRunsStepsThenOneTimerUpdate: frames of no step and of two, and one that aborts. -/
theorem witness_frame : (boot 0x6105).status = .running ∧ (∃ u, runSteps 0 (boot 0x6105) = .next u) ∧
    (∃ u, runSteps 2 (boot 0x6105) = .next u) ∧ (boot 0x8008).status = .running ∧
    ∃ f, runSteps 1 (boot 0x8008) = .fault f := ⟨rfl, ⟨_, rfl⟩, ⟨_, rfl⟩, rfl, ⟨_, rfl⟩⟩

/-- WaveEmitsThenAdvances, PixelReadsWrapAndChangeNothing, KeySetChangesOneKeyAndFramesNone. -/
theorem witness_running : State.reset.status = .running ∧ ∃ t, frame 1 (boot 0x6105) = .next t := ⟨rfl, ⟨_, rfl⟩⟩

/-- PixelReadsWrapAndChangeNothing: the last pixel and one past the first, on the 64 by 32 display. -/
theorem witness_pixels : State.reset.config.displayW.val = 64 ∧ State.reset.config.displayH.val = 32 ∧
    (31 : Fin 32).val = 31 % State.reset.config.displayH.val ∧ (63 : Fin 64).val = 63 % State.reset.config.displayW.val ∧
    (0 : Fin 32).val = 32 % State.reset.config.displayH.val ∧
    (0 : Fin 64).val = 64 % State.reset.config.displayW.val := by decide

/-- PhaseCountStandsForThePhase. -/
theorem witness_phase_step : (0 : ℝ) < 1 ∧ (1 : ℝ) < 2 * Real.pi ∧ IsPhase 1 0 0 ∧ IsWaveSample 1 0 0 := by
  have hpi := Real.pi_gt_three
  have h : IsPhase 1 0 0 := ⟨le_refl _, by linarith, 0, by simp⟩
  exact ⟨one_pos, by linarith, h, 0, h, by simp⟩

/-- DrawingASpriteIsXorWithWrap, DrawingTwiceRestoresTheDisplay: no row and fifteen. -/
theorem witness_sprite_rows : ([] : List Byte).length ≤ 15 ∧ (List.replicate 15 (0xFF : Byte)).length ≤ 15 := by decide

/-- SysChangesNothing: the words beside those of CLS and RET. -/
theorem witness_sys : (0x0E1 : Addr) ≠ 0x0E0 ∧ (0x0E1 : Addr) ≠ 0x0EE ∧ (0x0EF : Addr) ≠ 0x0E0 ∧
    (0x0EF : Addr) ≠ 0x0EE := by decide

/-- LdGlyphPointsAtTheDigit, KeySkipsFollowTheKeyLevel: the last digit or key, and the first number past it. -/
theorem witness_digits : ((State.reset.setReg 3 15).reg 3).toNat ≤ 15 ∧
    ((State.reset.setReg 3 15).reg 3).toNat = (15 : Key).val ∧ (State.reset.reg 3).toNat = (0 : Key).val ∧
    15 < ((State.reset.setReg 3 16).reg 3).toNat ∧ State.reset.config.fontBase.val = 0 ∧
    State.reset.config.glyphStride.val = 5 := by decide

/-- BcdStoresThreeDigits, StoreRegistersWritesMemoryAtI, LoadRegistersReadsMemoryAtI: the last index that fits and the
first that does not. -/
theorem witness_index_range :
    (State.reset.setIndex 4093).index.toNat + 2 < (State.reset.setIndex 4093).config.memSize ∧
    (State.reset.setIndex 4094).config.memSize ≤ (State.reset.setIndex 4094).index.toNat + 2 ∧
    (State.reset.setIndex 4080).index.toNat + (15 : Reg).val < (State.reset.setIndex 4080).config.memSize ∧
    (State.reset.setIndex 4081).config.memSize ≤ (State.reset.setIndex 4081).index.toNat + (15 : Reg).val ∧
    (State.reset.setIndex 4096).config.memSize ≤ (State.reset.setIndex 4096).index.toNat + (0 : Reg).val := by decide

/-- DrwDrawsMemoryAtIAndSetsVf: no row at an index outside memory, the last index that fits, the first that does
not; and a sprite that hits a pixel. -/
theorem witness_drw :
    ((0 : Fin 16).val = 0 ∨
      (State.reset.setIndex 0xFFFF).index.toNat + (0 : Fin 16).val ≤ (State.reset.setIndex 0xFFFF).config.memSize) ∧
    ((15 : Fin 16).val = 0 ∨
      (State.reset.setIndex 4081).index.toNat + (15 : Fin 16).val ≤ (State.reset.setIndex 4081).config.memSize) ∧
    0 < (15 : Fin 16).val ∧
    (State.reset.setIndex 4082).config.memSize < (State.reset.setIndex 4082).index.toNat + (15 : Fin 16).val ∧
    SpriteHits hardware 60 31 [0xFF] (setPixel hardware blankDisplay 2 31 .on) ∧
    ¬ SpriteHits hardware 0 0 [0x01] blankDisplay := by
  refine ⟨by decide, by decide, by decide, by decide, ⟨2, 31, ⟨0, 6, by decide⟩, by decide⟩, ?_⟩
  rintro ⟨px, py, -, h⟩
  rw [getPixel_blank] at h
  cases h

/-- KeyWaitTakesTheLeastKeyOrRewinds, FirstPressedKeyIsTheLeast: two keys down, and none. -/
theorem witness_keys :
    (((State.reset.setKey 4 .pressed).setKey 0xB .pressed).keyState 4 = .pressed ∧
      ∀ j : Key, j < 4 → ((State.reset.setKey 4 .pressed).setKey 0xB .pressed).keyState j = .released) ∧
    ∀ k, State.reset.keyState k = .released := by decide

end Sys2Proof.Tests
end

section
/-! SUPPORT. The invariant `State.Inv` (10_state.md R16, R19; log 19): which operations keep it, every instruction, every
step, and every host transaction. -/

namespace Sys2Proof.Machine

/-- `P` holds of the state an outcome completes in; of an abort or a refusal nothing is said. -/
def OnNext (P : State → Prop) : Result → Prop
  | .next t => P t
  | .fault _ | .refused _ => True

theorem onNext_iff {P : State → Prop} {r : Result} : OnNext P r ↔ ∀ t, r = .next t → P t := by
  cases r <;> simp [OnNext]

/-! ## The operations under the invariant -/

/-- The invariant reads the configuration, memory, `pc` and the stack, and nothing else. -/
theorem State.Inv.congr {s t : State} (h : s.Inv) (hconfig : t.config = s.config) (hmem : t.mem = s.mem)
    (hpc : t.pc = s.pc) (hsp : t.sp = s.sp) (hstk : t.stk = s.stk) : t.Inv where
  memoryCanonical := by rw [hconfig, hmem]; exact h.memoryCanonical
  pcBounded := by rw [hconfig, hpc]; exact h.pcBounded
  returnsBounded := by rw [hconfig, hsp, hstk]; exact h.returnsBounded
  stackBounded := by rw [hconfig, hsp]; exact h.stackBounded

section Updates
variable {s : State} (h : s.Inv)
include h

theorem State.Inv.setReg (r : Reg) (b : Byte) : (s.setReg r b).Inv := h.congr rfl rfl rfl rfl rfl
theorem State.Inv.setRegs (v : Vector Byte 16) : (s.setRegs v).Inv := h.congr rfl rfl rfl rfl rfl
theorem State.Inv.setFlag (b : Byte) : (s.setFlag b).Inv := h.setReg flagReg b
theorem State.Inv.setIndex (a : Word) : (s.setIndex a).Inv := h.congr rfl rfl rfl rfl rfl
theorem State.Inv.setDt (b : Byte) : (s.setDt b).Inv := h.congr rfl rfl rfl rfl rfl
theorem State.Inv.setSt (b : Byte) : (s.setSt b).Inv := h.congr rfl rfl rfl rfl rfl
theorem State.Inv.setPhase (q : Nat) : (s.setPhase q).Inv := h.congr rfl rfl rfl rfl rfl
theorem State.Inv.setKey (k : Key) (p : KeyState) : (s.setKey k p).Inv := h.congr rfl rfl rfl rfl rfl
theorem State.Inv.setPix (d : Display) : (s.setPix d).Inv := h.congr rfl rfl rfl rfl rfl
theorem State.Inv.setDraws (k : Nat) : (s.setDraws k).Inv := h.congr rfl rfl rfl rfl rfl

theorem State.Inv.timerUpdate : (timerUpdate s).Inv := (h.setDt _).setSt _

theorem State.Inv.setPc {p : Word} (hp : p.toNat ≤ max 0x10FE (s.config.memSize + 2)) : (s.setPc p).Inv where
  memoryCanonical := h.memoryCanonical
  pcBounded := hp
  returnsBounded := h.returnsBounded
  stackBounded := h.stackBounded

theorem State.Inv.setMem {m : Memory} (hm : Memory.wf s.config m) : (s.setMem m).Inv where
  memoryCanonical := hm
  pcBounded := h.pcBounded
  returnsBounded := h.returnsBounded
  stackBounded := h.stackBounded

/-- A completed push of an address in bounds keeps the invariant (40_flow.md R80). -/
theorem State.Inv.push {v : Word} {t : State} (hv : v.toNat ≤ s.config.memSize) (e : push v s = .ok t) : t.Inv := by
  obtain ⟨hdepth, hlt, rfl⟩ := push_ok e
  refine ⟨h.memoryCanonical, h.pcBounded, fun j hj => ?_, hdepth⟩
  simp only [State.setStack_stk, State.setStack_config]
  by_cases hnew : s.sp.val = j.val
  · simpa [hnew] using hv
  · have hold : j.val < s.sp.val := by
      have : j.val < s.sp.val + 1 := hj
      omega
    rw [Vector.getElem_set_ne _ _ hnew]
    exact h.returnsBounded j hold

/-- A completed pull keeps the invariant, and what it gives is a return address in bounds (40_flow.md R81). -/
theorem State.Inv.pull {v : Word} {t : State} (e : pull s = .ok (v, t)) :
    t.Inv ∧ v.toNat ≤ t.config.memSize := by
  obtain ⟨hpos, rfl, rfl⟩ := pull_ok e
  have hsp : s.sp.val - 1 < s.sp.val := by omega
  refine ⟨⟨h.memoryCanonical, h.pcBounded, fun j hj => h.returnsBounded j (lt_trans hj hsp),
    le_trans hsp.le h.stackBounded⟩, ?_⟩
  exact h.returnsBounded ⟨s.sp.val - 1, by omega⟩ hsp

end Updates

/-- A completed write access keeps the canonical form. -/
theorem writeBytes_wf {cf : Config} {m m' : Memory} {a : Nat} {bs : List Byte} (hm : Memory.wf cf m)
    (e : writeBytes cf m a bs = .ok m') : Memory.wf cf m' := by
  by_cases hin : bs.length = 0 ∨ a + bs.length ≤ cf.memSize
  · obtain ⟨-, hnone, hwf⟩ := writeUpTo_spec (cf := cf) m a bs
    rw [if_pos hin] at hnone
    rw [writeBytes, ← Prod.eta (writeUpTo cf m a bs), hnone] at e
    cases e
    exact hwf hm
  · rw [writeBytes_error m a bs (by omega) (by omega)] at e
    cases e

/-! ## Every instruction -/

/-- The state an instruction's meaning starts from: the invariant, with `pc` just advanced past an instruction that lies
in memory (10_state.md R14), so that neither the next address nor the rewound one leaves it. -/
structure State.Fetched (s : State) : Prop where
  inv    : s.Inv
  next   : s.pc.toNat ≤ s.config.memSize
  rewind : (s.pc - 2).toNat ≤ s.config.memSize

/-- A fetch that succeeds leaves `pc + 2` in memory bounds. -/
theorem State.Inv.fetched {s : State} {w : Word} (h : s.Inv) (hf : fetch s = .ok w) :
    (s.setPc (s.pc + 2)).Fetched := by
  rcases fetch_cases s with ⟨hpc, -⟩ | ⟨-, e⟩
  · have hnext : (s.pc + 2).toNat ≤ s.config.memSize := by
      rw [BitVec.toNat_add]
      exact le_trans (Nat.mod_le _ _) hpc
    refine ⟨h.setPc (by omega), hnext, ?_⟩
    rw [State.setPc_pc, BitVec.add_sub_cancel, State.setPc_config]
    omega
  · rw [e] at hf
    cases hf

section Meanings
variable {s : State} (h : s.Fetched)
include h

theorem State.Fetched.skipIf (c : Bool) : (skipIf c s).Inv := by
  rw [skipIf_eq]
  apply h.inv.setPc
  have hnext := h.next
  cases c with
  | false => simp only [Bool.false_eq_true, if_false]; omega
  | true =>
    have hmod : (s.pc + 2).toNat ≤ s.pc.toNat + 2 := by
      rw [BitVec.toNat_add]
      exact Nat.mod_le _ _
    simp only [if_true]
    omega

theorem State.Fetched.jump (nnn : Addr) : (s.setPc (zextAddr nnn)).Inv := by
  apply h.inv.setPc
  rw [zextAddr_toNat]
  omega

/-- `Bnnn` reaches at most 0xFFF + 0xFF (10_state.md R16, 40_flow.md R92). -/
theorem State.Fetched.jumpV0 (nnn : Addr) (b : Byte) : (s.setPc (zextAddr nnn + zextByte b)).Inv := by
  apply h.inv.setPc
  rw [BitVec.toNat_add, zextAddr_toNat, zextByte_toNat]
  omega

theorem execRet_onNext_inv : OnNext State.Inv (execRet s) := by
  unfold execRet
  split
  next v t e =>
    obtain ⟨ht, hv⟩ := h.inv.pull e
    exact ht.setPc (by omega)
  next => trivial

theorem execCall_onNext_inv (nnn : Addr) : OnNext State.Inv (execCall nnn s) := by
  unfold execCall
  split
  next t e =>
    apply (h.inv.push h.next e).setPc
    rw [zextAddr_toNat]
    omega
  next => trivial

theorem execDrw_onNext_inv (x y : Reg) (n : Fin 16) : OnNext State.Inv (execDrw x y n s) := by
  unfold execDrw
  split
  next => exact (h.inv.setPix _).setFlag _
  next => trivial

theorem execSkp_onNext_inv (x : Reg) : OnNext State.Inv (execSkp x s) := by
  unfold execSkp
  split
  next => exact h.skipIf _
  next => trivial

theorem execSknp_onNext_inv (x : Reg) : OnNext State.Inv (execSknp x s) := by
  unfold execSknp
  split
  next => exact h.skipIf _
  next => trivial

theorem execLdVxK_onNext_inv (x : Reg) : OnNext State.Inv (execLdVxK x s) := by
  unfold execLdVxK
  split
  next => exact h.inv.setReg _ _
  next =>
    have hrewind := h.rewind
    exact h.inv.setPc (by omega)

theorem execLdF_onNext_inv (x : Reg) : OnNext State.Inv (execLdF x s) := by
  unfold execLdF
  split
  next => exact h.inv.setIndex _
  next => trivial

theorem execLdB_onNext_inv (x : Reg) : OnNext State.Inv (execLdB x s) := by
  unfold execLdB
  split
  next e => exact h.inv.setMem (writeBytes_wf h.inv.memoryCanonical e)
  next => trivial

theorem execStoreRegs_onNext_inv (x : Reg) : OnNext State.Inv (execStoreRegs x s) := by
  unfold execStoreRegs
  split
  next e => exact h.inv.setMem (writeBytes_wf h.inv.memoryCanonical e)
  next => trivial

theorem execLoadRegs_onNext_inv (x : Reg) : OnNext State.Inv (execLoadRegs x s) := by
  unfold execLoadRegs
  split
  next => exact h.inv.setRegs _
  next => trivial

/-- Every instruction, run on the state after its fetch advance, keeps the invariant where it completes. -/
theorem exec_onNext_inv (i : Instr) : OnNext State.Inv (exec i s) :=
  match i with
  | .cls => h.inv.setPix _
  | .ret => execRet_onNext_inv h
  | .sys _ => h.inv
  | .jp nnn => h.jump nnn
  | .call nnn => execCall_onNext_inv h nnn
  | .seImm _ _ | .sneImm _ _ | .seReg _ _ | .sneReg _ _ => h.skipIf _
  | .ldImm x _ | .addImm x _ | .ldReg x _ | .orReg x _ | .andReg x _ | .xorReg x _ => h.inv.setReg x _
  | .addReg x _ | .subReg x _ | .subnReg x _ => (h.inv.setReg x _).setFlag _
  | .shr x _ | .shl x _ => (h.inv.setFlag _).setReg x _
  | .ldI _ => h.inv.setIndex _
  | .jpV0 nnn => h.jumpV0 nnn _
  | .rnd x _ => (h.inv.setDraws _).setReg x _
  | .drw x y n => execDrw_onNext_inv h x y n
  | .skp x => execSkp_onNext_inv h x
  | .sknp x => execSknp_onNext_inv h x
  | .ldVxDt x => h.inv.setReg x _
  | .ldVxK x => execLdVxK_onNext_inv h x
  | .ldDtVx _ => h.inv.setDt _
  | .ldStVx _ => h.inv.setSt _
  | .addI _ => h.inv.setIndex _
  | .ldF x => execLdF_onNext_inv h x
  | .ldB x => execLdB_onNext_inv h x
  | .storeRegs x => execStoreRegs_onNext_inv h x
  | .loadRegs x => execLoadRegs_onNext_inv h x

end Meanings

/-! ## Steps, frames and resets -/

/-- A step that completes keeps the invariant. -/
theorem step_inv {s t : State} (e : step s = .next t) (h : s.Inv) : t.Inv := by
  obtain ⟨w, i, -, hf, -, hexec⟩ := step_next e
  exact onNext_iff.1 (exec_onNext_inv (h.fetched hf) i) t hexec

/-- A frame that completes keeps the invariant: its steps do, and the timer update does. -/
theorem frame_onNext_inv (n : Nat) {s : State} (h : s.Inv) : OnNext State.Inv (frame n s) := by
  unfold frame
  split
  next => trivial
  next =>
    split
    next t e =>
      have ht : t.Inv := runSteps_induction (fun _ _ => step_inv) e h
      exact ht.timerUpdate
    all_goals trivial

/-- The ROM copy into an empty memory is canonical where the ROM fits (70_reset_and_hazards.md R191, R192); where
`PROG_BASE` lies outside memory only the empty ROM fits. -/
theorem loadImage_wf (c : Config) (rom : List Byte) (hfit : rom.length ≤ maxRomLength c) :
    Memory.wf c (loadImage c [] c.progBase.toNat rom) := by
  have hnil : Memory.wf c [] := ⟨List.Pairwise.nil, by simp⟩
  cases rom with
  | nil => exact hnil
  | cons b bs =>
    refine (loadImage_spec [] c.progBase.toNat (b :: bs)).2 hnil ?_
    simp only [maxRomLength, List.length_cons] at hfit ⊢
    omega

/-- A machine fresh from a `RESET` that completes has the invariant. -/
theorem resetRom_onNext_inv (c : Config) (rom : List Byte) (draws : Nat) :
    OnNext State.Inv (resetRom c rom draws) := by
  unfold resetRom
  split
  next hfit =>
    have hpc : (c.progBase.setWidth 16).toNat ≤ max 0x10FE (c.memSize + 2) := by
      have := zextAddr_toNat c.progBase
      rw [zextAddr] at this
      omega
    exact ⟨loadImage_wf c rom hfit, hpc, fun j hj => absurd hj (Nat.not_lt_zero _), Nat.zero_le _⟩
  next => trivial

/-! ## The transactions -/

/-- The status latch: a completion brings its own state, a refusal keeps the old one, an abort is not running. -/
theorem latch_inv {s left : State} {r : Result} (hs : s.Inv) (hr : OnNext State.Inv r)
    (hrun : (latch s left r).2.status = .running) : (latch s left r).2.Inv := by
  cases r with
  | next t => exact hr
  | fault f => cases hrun
  | refused f => exact hs

theorem whenRunning_inv {s : State} {r : Reply × State} (hs : s.Inv) (hr : r.2.Inv) : (whenRunning s r).2.Inv := by
  unfold whenRunning
  split
  next => exact hr
  next => exact hs

/-- Settles O20, by the six transactions: RESET, STEP and FRAME through the status latch, the others through the field
they write. -/
theorem transactionsKeepTheInvariant : Obligations.TransactionsKeepTheInvariant := by
  intro tx s hs hrun
  cases tx with
  | reset c rom => exact latch_inv hs (resetRom_onNext_inv c rom s.draws) hrun
  | step => exact latch_inv hs (onNext_iff.2 fun _ e => step_inv e hs) hrun
  | frame n => exact latch_inv hs (frame_onNext_inv n hs) hrun
  | keySet k p => exact whenRunning_inv hs (hs.setKey k p)
  | pixelRead x y => exact whenRunning_inv hs hs
  | wave => exact whenRunning_inv hs (hs.setPhase _)

/-- Settles O1: each parameter is the value `hardware` gives it (00_scope.md R4), and the two halves of its font are the
sixteen glyphs of 20_memory.md R50. -/
theorem hardwareHasTheStatedParameters : Obligations.HardwareHasTheStatedParameters :=
  ⟨rfl, rfl, rfl, rfl, rfl, rfl, rfl, rfl, rfl, rfl, rfl, rfl⟩

end Sys2Proof.Machine
end

section
/-! SUPPORT. Frames (10_state.md R12, R18 to R24): what each update of the state leaves unchanged, what an instruction
may write, and that no completing instruction writes more. -/

namespace Sys2Proof.Machine

/-! ## Frames of the field updates -/

theorem SameAt.trans {s t u : State} {c : Component} (hst : SameAt s t c) (htu : SameAt t u c) : SameAt s u c := by
  cases c <;> exact Eq.trans htu hst

theorem ChangesOnly.refl (touched : Component → Prop) (s : State) : ChangesOnly touched s s := by
  intro c _
  cases c <;> rfl

theorem ChangesOnly.trans {touched : Component → Prop} {s t u : State} (hst : ChangesOnly touched s t)
    (htu : ChangesOnly touched t u) : ChangesOnly touched s u :=
  fun c hc => (hst c hc).trans (htu c hc)

section Updates
variable {touched : Component → Prop} (s : State)

theorem setReg_changesOnly (r : Reg) (b : Byte) (h : touched (.reg r)) : ChangesOnly touched s (s.setReg r b) := by
  intro c hc
  cases c with
  | reg q =>
    have hne : q ≠ r := fun e => hc (e ▸ h)
    simp [SameAt, hne]
  | _ => rfl

theorem setFlag_changesOnly (b : Byte) (h : touched (.reg flagReg)) : ChangesOnly touched s (s.setFlag b) :=
  setReg_changesOnly s flagReg b h

theorem setRegs_changesOnly (v : Vector Byte 16) (h : ∀ r : Reg, ¬ touched (.reg r) → v[r.val] = s.reg r) :
    ChangesOnly touched s (s.setRegs v) := by
  intro c hc
  cases c with
  | reg r => exact h r hc
  | _ => rfl

theorem setPc_changesOnly (p : Word) (h : touched .pc) : ChangesOnly touched s (s.setPc p) := by
  intro c hc
  cases c with
  | pc => exact absurd h hc
  | _ => rfl

theorem skipIf_changesOnly (b : Bool) (h : touched .pc) : ChangesOnly touched s (skipIf b s) :=
  skipIf_eq b s ▸ setPc_changesOnly s _ h

theorem setIndex_changesOnly (a : Word) (h : touched .index) : ChangesOnly touched s (s.setIndex a) := by
  intro c hc
  cases c with
  | index => exact absurd h hc
  | _ => rfl

theorem setStack_changesOnly (sp : Fin 17) (stk : Vector Word 16) (hsp : touched .sp)
    (hslot : ∀ j : Fin 16, ¬ touched (.slot j) → stk[j.val] = s.stk[j.val]) :
    ChangesOnly touched s (s.setStack sp stk) := by
  intro c hc
  cases c with
  | sp => exact absurd hsp hc
  | slot j => exact hslot j hc
  | _ => rfl

theorem setDt_changesOnly (b : Byte) (h : touched .dt) : ChangesOnly touched s (s.setDt b) := by
  intro c hc
  cases c with
  | dt => exact absurd h hc
  | _ => rfl

theorem setSt_changesOnly (b : Byte) (h : touched .st) : ChangesOnly touched s (s.setSt b) := by
  intro c hc
  cases c with
  | st => exact absurd h hc
  | _ => rfl

theorem setPix_changesOnly (d : Display)
    (h : ∀ x y, ¬ touched (.pixel x y) → getPixel s.config d x y = getPixel s.config s.pix x y) :
    ChangesOnly touched s (s.setPix d) := by
  intro c hc
  cases c with
  | pixel x y => exact h x y hc
  | _ => rfl

theorem setMem_changesOnly (m : Memory) (h : ∀ a, ¬ touched (.byte a) → readByte s.config m a = s.byteAt a) :
    ChangesOnly touched s (s.setMem m) := by
  intro c hc
  cases c with
  | byte a => exact h a hc
  | _ => rfl

theorem setDraws_changesOnly (k : Nat) (h : touched .draws) : ChangesOnly touched s (s.setDraws k) := by
  intro c hc
  cases c with
  | draws => exact absurd h hc
  | _ => rfl

end Updates

/-! ## The listed writers -/

/-- Which pieces of the state an instruction may write: each piece with its writers. -/
def mayWrite (i : Instr) : Component → Prop
  | .reg r => mayWriteReg i r
  | .pc => True
  | .index => (∃ nnn, i = .ldI nnn) ∨ (∃ x, i = .addI x) ∨ ∃ x, i = .ldF x
  | .sp => (∃ nnn, i = .call nnn) ∨ i = .ret
  | .slot _ => ∃ nnn, i = .call nnn
  | .dt => ∃ x, i = .ldDtVx x
  | .st => ∃ x, i = .ldStVx x
  | .pixel _ _ => i = .cls ∨ ∃ x y n, i = .drw x y n
  | .byte _ => (∃ x, i = .ldB x) ∨ ∃ x, i = .storeRegs x
  | .draws => ∃ x kk, i = .rnd x kk
  | .phase | .key _ | .status | .config => False

/-- A read access that completes gives as many bytes as were asked for. -/
theorem readBytes_length {cf : Config} {m : Memory} {a n : Nat} {bs : List Byte}
    (e : readBytes cf m a n = .ok bs) : bs.length = n := by
  by_cases hin : n = 0 ∨ a + n ≤ cf.memSize
  · rw [readBytes, readUpTo_eq, if_pos hin] at e
    cases e
    rw [List.length_map, List.length_range]
    omega
  · rw [readBytes_error m a n (by omega) (by omega)] at e
    cases e

section Meanings
variable (s : State)

theorem execRet_frame : OnNext (ChangesOnly (mayWrite .ret) s) (execRet s) := by
  unfold execRet
  split
  next e =>
    obtain ⟨-, rfl, rfl⟩ := pull_ok e
    exact (setStack_changesOnly s _ _ (.inr rfl) fun _ _ => rfl).trans (setPc_changesOnly _ _ trivial)
  next => trivial

theorem execCall_frame (nnn : Addr) : OnNext (ChangesOnly (mayWrite (.call nnn)) s) (execCall nnn s) := by
  unfold execCall
  split
  next e =>
    obtain ⟨-, -, rfl⟩ := push_ok e
    exact (setStack_changesOnly s _ _ (.inl ⟨nnn, rfl⟩) fun _ h => absurd ⟨nnn, rfl⟩ h).trans
      (setPc_changesOnly _ _ trivial)
  next => trivial

theorem execDrw_frame (x y : Reg) (n : Fin 16) : OnNext (ChangesOnly (mayWrite (.drw x y n)) s) (execDrw x y n s) := by
  unfold execDrw
  split
  next =>
    exact (setPix_changesOnly s _ fun _ _ h => absurd (.inr ⟨x, y, n, rfl⟩) h).trans (setFlag_changesOnly _ _ rfl)
  next => trivial

theorem execSkp_frame (x : Reg) : OnNext (ChangesOnly (mayWrite (.skp x)) s) (execSkp x s) := by
  unfold execSkp
  split
  next => exact skipIf_changesOnly s _ trivial
  next => trivial

theorem execSknp_frame (x : Reg) : OnNext (ChangesOnly (mayWrite (.sknp x)) s) (execSknp x s) := by
  unfold execSknp
  split
  next => exact skipIf_changesOnly s _ trivial
  next => trivial

theorem execLdVxK_frame (x : Reg) : OnNext (ChangesOnly (mayWrite (.ldVxK x)) s) (execLdVxK x s) := by
  unfold execLdVxK
  split
  next => exact setReg_changesOnly s x _ rfl
  next => exact setPc_changesOnly s _ trivial

theorem execLdF_frame (x : Reg) : OnNext (ChangesOnly (mayWrite (.ldF x)) s) (execLdF x s) := by
  unfold execLdF
  split
  next => exact setIndex_changesOnly s _ (.inr (.inr ⟨x, rfl⟩))
  next => trivial

theorem execLdB_frame (x : Reg) : OnNext (ChangesOnly (mayWrite (.ldB x)) s) (execLdB x s) := by
  unfold execLdB
  split
  next => exact setMem_changesOnly s _ fun _ h => absurd (.inl ⟨x, rfl⟩) h
  next => trivial

theorem execStoreRegs_frame (x : Reg) : OnNext (ChangesOnly (mayWrite (.storeRegs x)) s) (execStoreRegs x s) := by
  unfold execStoreRegs
  split
  next => exact setMem_changesOnly s _ fun _ h => absurd (.inr ⟨x, rfl⟩) h
  next => trivial

/-- The load loop of `Fx65` writes `V[0]` to `V[x]` (42_index_memory.md R125). -/
theorem execLoadRegs_frame (x : Reg) : OnNext (ChangesOnly (mayWrite (.loadRegs x)) s) (execLoadRegs x s) := by
  unfold execLoadRegs
  split
  next bs e =>
    refine setRegs_changesOnly s _ fun r hr => ?_
    have hx : x.val < r.val := Nat.lt_of_not_le hr
    rw [loadRegsFrom_getElem _ _ _ _ r.isLt, if_neg (by rw [readBytes_length e]; omega)]
    rfl
  next => trivial

/-- No completing instruction writes a piece of the state that does not list it as a writer. -/
theorem exec_frame (i : Instr) : OnNext (ChangesOnly (mayWrite i) s) (exec i s) :=
  match i with
  | .cls => setPix_changesOnly s _ fun _ _ h => absurd (.inl rfl) h
  | .ret => execRet_frame s
  | .sys _ => .refl _ s
  | .jp _ | .jpV0 _ => setPc_changesOnly s _ trivial
  | .call nnn => execCall_frame s nnn
  | .seImm _ _ | .sneImm _ _ | .seReg _ _ | .sneReg _ _ => skipIf_changesOnly s _ trivial
  | .ldImm x _ | .addImm x _ | .ldReg x _ | .orReg x _ | .andReg x _ | .xorReg x _ | .ldVxDt x =>
    setReg_changesOnly s x _ rfl
  | .addReg x _ | .subReg x _ | .subnReg x _ =>
    (setReg_changesOnly s x _ (.inl rfl)).trans (setFlag_changesOnly _ _ (.inr rfl))
  | .shr x _ | .shl x _ => (setFlag_changesOnly s _ (.inr rfl)).trans (setReg_changesOnly _ x _ (.inl rfl))
  | .ldI nnn => setIndex_changesOnly s _ (.inl ⟨nnn, rfl⟩)
  | .addI x => setIndex_changesOnly s _ (.inr (.inl ⟨x, rfl⟩))
  | .rnd x kk => (setDraws_changesOnly s _ ⟨x, kk, rfl⟩).trans (setReg_changesOnly _ x _ rfl)
  | .drw x y n => execDrw_frame s x y n
  | .skp x => execSkp_frame s x
  | .sknp x => execSknp_frame s x
  | .ldVxK x => execLdVxK_frame s x
  | .ldDtVx x => setDt_changesOnly s _ ⟨x, rfl⟩
  | .ldStVx x => setSt_changesOnly s _ ⟨x, rfl⟩
  | .ldF x => execLdF_frame s x
  | .ldB x => execLdB_frame s x
  | .storeRegs x => execStoreRegs_frame s x
  | .loadRegs x => execLoadRegs_frame s x

end Meanings

/-- What a completing instruction leaves as it was. -/
theorem exec_changesOnly {i : Instr} {s t : State} (e : exec i s = .next t) : ChangesOnly (mayWrite i) s t :=
  onNext_iff.1 (exec_frame s i) t e

/-- A step that completes leaves the status as it was. -/
theorem step_status {s t : State} (e : step s = .next t) : t.status = s.status := by
  obtain ⟨w, i, -, -, -, hexec⟩ := step_next e
  exact exec_changesOnly hexec .status id

/-- Settles O22: the registers are one of the pieces of `mayWrite`, with the writers of 10_state.md R12. -/
theorem registersHaveTheirListedWriters : Obligations.RegistersHaveTheirListedWriters :=
  fun _ _ _ r e hr => exec_changesOnly e (.reg r) hr

/-- Settles O23: in each clause the excluded instructions are the writers `mayWrite` lists for that piece. -/
theorem specialStateHasItsListedWriters : Obligations.SpecialStateHasItsListedWriters := by
  intro i s t e
  have hframe := exec_changesOnly e
  refine ⟨fun hldI haddI hldF => hframe .index ?_, fun hcall hret => hframe .sp ?_,
    fun hcall j => hframe (.slot j) ?_, fun hdt => hframe .dt ?_, fun hst => hframe .st ?_,
    fun hcls hdrw x y => hframe (.pixel x y) ?_, hframe .phase id, fun k => hframe (.key k) id,
    hframe .status id, hframe .config id⟩
  · rintro (⟨nnn, h⟩ | ⟨x, h⟩ | ⟨x, h⟩)
    exacts [hldI nnn h, haddI x h, hldF x h]
  · rintro (⟨nnn, h⟩ | h)
    exacts [hcall nnn h, hret h]
  · exact fun ⟨nnn, h⟩ => hcall nnn h
  · exact fun ⟨x, h⟩ => hdt x h
  · exact fun ⟨x, h⟩ => hst x h
  · rintro (h | ⟨x, y, n, h⟩)
    exacts [hcls h, hdrw x y n h]

end Sys2Proof.Machine
end

section
/-! SUPPORT. Reset, step and the status latch (10_state.md R14, R24, R28; 60_exceptions.md R170; 70_reset_and_hazards.md
R190 to R195): the machine a RESET builds, the invariant on it, one step of it, and how a machine becomes ABORTED. -/

namespace Sys2Proof.Machine

/-- Settles O19, by the invariant of the advanced state that the fetched instruction starts from. -/
theorem stepKeepsTheInvariant : Obligations.StepKeepsTheInvariant :=
  fun _ _ hs e => step_inv e hs

/-! ## Reset -/

/-- `RESET` of a ROM that fits (70_reset_and_hazards.md R190). -/
theorem resetRom_of_fits {c : Config} {rom : List Byte} (h : rom.length ≤ maxRomLength c) (draws : Nat) :
    resetRom c rom draws = .next { State.reset with
      pc := c.progBase.setWidth 16, mem := loadImage c [] c.progBase.toNat rom, config := c, draws := draws } :=
  if_pos h

/-- `RESET` of a ROM that does not fit (70_reset_and_hazards.md R192). -/
theorem resetRom_of_tooLong {c : Config} {rom : List Byte} (h : maxRomLength c < rom.length) (draws : Nat) :
    resetRom c rom draws = .fault (.romTooLarge rom.length) :=
  if_neg (Nat.not_le.2 h)

/-- The reset state is that of the empty ROM on this hardware. -/
theorem resetRom_hardware_nil : resetRom hardware [] 0 = .next State.reset := rfl

/-- A machine that a `RESET` has built runs (decision D20; log 5). -/
theorem resetRom_status {c : Config} {rom : List Byte} {draws : Nat} {t : State}
    (e : resetRom c rom draws = .next t) : t.status = .running := by
  by_cases h : rom.length ≤ maxRomLength c
  · rw [resetRom_of_fits h] at e
    cases e
    rfl
  · rw [resetRom_of_tooLong (Nat.lt_of_not_le h)] at e
    cases e

/-- Inside the ROM image memory reads as the ROM (20_memory.md R48). -/
theorem readByte_loadImage_rom {c : Config} {rom : List Byte} {base j : Nat} (hj : j < rom.length)
    (hfit : rom.length ≤ c.memSize - base) :
    readByte c (loadImage c [] base rom) (base + j) = .ok (rom.getD j 0) := by
  refine readByte_eq_ok.2 ⟨by omega, ?_⟩
  rw [(loadImage_spec [] base rom).1, if_pos (by omega), Nat.add_sub_cancel_left]

/-- Outside the ROM image memory reads as the reset contents (20_memory.md R48). -/
theorem readByte_loadImage_rest {c : Config} {rom : List Byte} {base a : Nat} (ha : a < c.memSize)
    (hout : a < base ∨ base + rom.length ≤ a) :
    readByte c (loadImage c [] base rom) a = .ok (resetByte c a) := by
  refine readByte_eq_ok.2 ⟨ha, ?_⟩
  rw [(loadImage_spec [] base rom).1, if_neg (by omega), Memory.lookup_nil]

/-- An address that is that of no font byte holds zero (20_memory.md R48). -/
theorem resetByte_of_ne_font {c : Config} {a : Nat} (h : ∀ j : Fin 80, a ≠ c.fontBase.val + j.val) :
    resetByte c a = 0 := by
  refine resetByte_zero a (not_and_or.1 ?_ |>.imp Nat.lt_of_not_le Nat.le_of_not_lt)
  rintro ⟨hlow, hhigh⟩
  exact h ⟨a - c.fontBase.val, by omega⟩ (Nat.add_sub_cancel' hlow).symm

/-- Settles O2: the registers by the literal state, memory by the ROM copy over the reset contents. -/
theorem resetBuildsTheStatedMachine : Obligations.ResetBuildsTheStatedMachine := by
  refine ⟨resetRom_hardware_nil, fun c rom k => ⟨fun hfit => ⟨_, resetRom_of_fits hfit k, ?_⟩,
    fun hlong => resetRom_of_tooLong hlong k⟩⟩
  refine ⟨fun r => ?_, zextAddr_toNat _, rfl, rfl, fun j => ?_, rfl, rfl, rfl, fun q => ?_, fun x y => ?_,
    rfl, rfl, rfl, fun j hj => readByte_loadImage_rom hj hfit, fun a ha hout => ?_⟩
  · exact Vector.getElem_replicate r.isLt
  · exact Vector.getElem_replicate j.isLt
  · exact Vector.getElem_replicate q.isLt
  · exact getPixel_blank c x y
  · have hread := readByte_loadImage_rest ha hout
    refine ⟨fun j hj => ?_, fun hno => ?_⟩
    · rw [State.byteAt_eq, hread, hj, resetByte_font j.val j.isLt]
    · rw [State.byteAt_eq, hread, resetByte_of_ne_font hno]

/-- Settles O18: every `RESET` that completes, and `State.reset` as that of the empty ROM. -/
theorem invariantHoldsAfterReset : Obligations.InvariantHoldsAfterReset := by
  have hreset (c : Config) (rom : List Byte) (k : Nat) (t : State) (e : resetRom c rom k = .next t) : t.Inv :=
    onNext_iff.1 (resetRom_onNext_inv c rom k) t e
  exact ⟨hreset hardware [] 0 State.reset resetRom_hardware_nil, rfl, hreset⟩

/-! ## One step -/

/-- The word of two readable bytes (20_memory.md R43). -/
theorem readWord_of_readByte {c : Config} {m : Memory} {a : Nat} {hi lo : Byte} (hhi : readByte c m a = .ok hi)
    (hlo : readByte c m (a + 1) = .ok lo) : readWord c m a = .ok (wordOfBytes hi lo) := by
  obtain ⟨-, rfl⟩ := readByte_eq_ok.1 hhi
  obtain ⟨hin, rfl⟩ := readByte_eq_ok.1 hlo
  exact readWord_eq_ok.2 ⟨hin, rfl⟩

/-- Settles O3: the fetch gives the word of the two bytes, and the step runs what it decodes to. -/
theorem stepRunsTheDecodedInstruction : Obligations.StepRunsTheDecodedInstruction :=
  fun _ _ _ _ hrun hhi hlo hdecode _ => step_eq_exec hrun (readWord_of_readByte hhi hlo) hdecode

/-! ## The status latch -/

/-- A frame that completes leaves the status as it was. -/
theorem frame_status {n : Nat} {s t : State} (e : frame n s = .next t) : t.status = s.status := by
  unfold frame at e
  split at e
  next => cases e
  next =>
    split at e
    next u hu =>
      have hkeep : u.status = s.status :=
        runSteps_induction (P := fun v => v.status = s.status) (fun _ _ hv ih => (step_status hv).trans ih) hu rfl
      cases e
      exact hkeep
    all_goals cases e

/-- An aborted machine refuses a step (60_exceptions.md R170). -/
theorem step_of_aborted {s : State} (h : s.status = .aborted) : step s = .refused .machineAborted := by
  simp only [step, h]

/-- An aborted machine refuses a frame (60_exceptions.md R170). -/
theorem frame_of_aborted {s : State} (h : s.status = .aborted) (n : Nat) : frame n s = .refused .machineAborted := by
  simp only [frame, h]

theorem whenRunning_of_running {s : State} (h : s.status = .running) (r : Reply × State) : whenRunning s r = r := by
  simp only [whenRunning, h]

theorem whenRunning_of_aborted {s : State} (h : s.status = .aborted) (r : Reply × State) :
    whenRunning s r = (.refused .machineAborted, s) := by
  simp only [whenRunning, h]

/-- A reply of an abort comes with the latch set. -/
theorem latch_status_of_aborted {s left t : State} {r : Result} {f : Fault}
    (e : latch s left r = (.aborted f, t)) : t.status = .aborted := by
  cases r with
  | fault g =>
    cases e
    rfl
  | next u => cases e
  | refused g => cases e

/-- The latch is set by an abort, or was set before: by the outcome's own state or the old one. -/
theorem aborted_of_latch {s left t : State} {r : Result} {reply : Reply}
    (hnext : ∀ u, r = .next u → u.status = .running ∨ u.status = s.status) (e : latch s left r = (reply, t))
    (ht : t.status = .aborted) : s.status = .aborted ∨ ∃ f, reply = .aborted f := by
  cases r with
  | next u =>
    cases e
    rcases hnext _ rfl with h | h
    · rw [h] at ht
      cases ht
    · exact .inl (h ▸ ht)
  | fault f =>
    cases e
    exact .inr ⟨f, rfl⟩
  | refused g =>
    cases e
    exact .inl ht

/-- A transaction that only a running machine accepts sets no latch. -/
theorem aborted_of_whenRunning {s t : State} {r : Reply × State} {reply : Reply} (hr : r.2.status = s.status)
    (e : whenRunning s r = (reply, t)) (ht : t.status = .aborted) : s.status = .aborted := by
  cases h : s.status with
  | aborted => rfl
  | running =>
    rw [whenRunning_of_running h] at e
    rw [← hr, e, ht] at h
    cases h

/-- A transaction that only a running machine accepts does not abort. -/
theorem whenRunning_ne_aborted {s t : State} {r : Reply × State} {f : Fault} (hr : ∀ g, r.1 ≠ .aborted g) :
    whenRunning s r ≠ (.aborted f, t) := by
  intro e
  cases h : s.status with
  | aborted =>
    rw [whenRunning_of_aborted h] at e
    cases e
  | running =>
    rw [whenRunning_of_running h] at e
    exact hr f (congrArg Prod.fst e)

/-- Every transaction that aborts latches ABORTED. -/
theorem transact_status_of_aborted {s t : State} {tx : Transaction} {f : Fault}
    (e : transact tx s = (.aborted f, t)) : t.status = .aborted := by
  cases tx with
  | reset | step | frame => exact latch_status_of_aborted e
  | keySet | pixelRead | wave => exact absurd e (whenRunning_ne_aborted fun _ h => by cases h)

/-- Only an abort latches ABORTED. -/
theorem aborted_of_transact {s t : State} {tx : Transaction} {r : Reply} (e : transact tx s = (r, t))
    (ht : t.status = .aborted) : s.status = .aborted ∨ ∃ f, r = .aborted f := by
  cases tx with
  | reset => exact aborted_of_latch (fun _ h => .inl (resetRom_status h)) e ht
  | step => exact aborted_of_latch (fun _ h => .inr (step_status h)) e ht
  | frame => exact aborted_of_latch (fun _ h => .inr (frame_status h)) e ht
  | keySet | pixelRead | wave => exact .inl (aborted_of_whenRunning rfl e ht)

/-- An aborted machine refuses every transaction but `RESET`, and stays as it is (60_exceptions.md R170). -/
theorem transact_of_aborted {s : State} {tx : Transaction} (h : s.status = .aborted)
    (htx : ∀ c rom, tx ≠ .reset c rom) : transact tx s = (.refused .machineAborted, s) := by
  cases tx with
  | reset c rom => exact absurd rfl (htx c rom)
  | step => rw [transact, step_of_aborted h, latch]
  | frame n => rw [transact, frame_of_aborted h, latch]
  | keySet | pixelRead | wave => exact whenRunning_of_aborted h _

/-- A `RESET` transaction answers what `resetRom` builds. -/
theorem transact_reset_of_fits {c : Config} {rom : List Byte} {s t : State}
    (e : resetRom c rom s.draws = .next t) : transact (.reset c rom) s = (.done, t) := by
  rw [transact, e, latch]

/-- Nothing of an earlier machine survives a `RESET` but the draw counter, which is no part of it
(70_reset_and_hazards.md R195; log 1). -/
theorem transact_reset_independent (s u : State) {c : Config} {rom : List Byte} (h : rom.length ≤ maxRomLength c) :
    (transact (.reset c rom) s).1 = (transact (.reset c rom) u).1 ∧
    ChangesOnly (among [.draws]) (transact (.reset c rom) s).2 (transact (.reset c rom) u).2 := by
  rw [transact_reset_of_fits (resetRom_of_fits h s.draws), transact_reset_of_fits (resetRom_of_fits h u.draws)]
  exact ⟨rfl, setDraws_changesOnly _ u.draws (List.mem_singleton.2 rfl)⟩

/-- Settles O6, by the six transactions: three go through the latch, three are accepted by a running machine only. -/
theorem abortLatchesUntilReset : Obligations.AbortLatchesUntilReset := by
  refine ⟨fun _ _ _ _ e => transact_status_of_aborted e, fun _ _ _ _ e ht => aborted_of_transact e ht,
    fun _ _ h htx => transact_of_aborted h htx, fun s c rom hfit => ?_,
    fun s u _ _ hfit => transact_reset_independent s u hfit⟩
  have e := resetRom_of_fits hfit s.draws
  exact ⟨_, e, transact_reset_of_fits e, resetRom_status e⟩

end Sys2Proof.Machine
end

section
/-! SUPPORT. The phase count read as a phase (10_state.md R21, 60_exceptions.md R179, R180; log 17): `IsPhase` is
Mathlib's reduction into [0, 2 pi). -/

namespace Sys2Proof.Machine

/-- The phase of a count is the one representative of `q * PHASE_STEP` in [0, 2 pi). -/
theorem isPhase_iff {step : ℝ} {q : Nat} {p : ℝ} :
    IsPhase step q p ↔ toIcoMod Real.two_pi_pos 0 (q * step) = p := by
  simp only [IsPhase, toIcoMod_eq_iff, Set.mem_Ico, zero_add, zsmul_eq_mul, and_assoc]

/-- Counting once adds one step to the phase, less a whole turn where the sum reaches one (60_exceptions.md R180). -/
theorem IsPhase.succ {step : ℝ} (hpos : 0 < step) (hlt : step < 2 * Real.pi) {q : Nat} {p : ℝ}
    (h : IsPhase step q p) :
    IsPhase step (q + 1) (if p + step < 2 * Real.pi then p + step else p + step - 2 * Real.pi) := by
  obtain ⟨hp, hp', k, hk⟩ := h
  have hsum : ((q + 1 : Nat) : ℝ) * step = p + step + k * (2 * Real.pi) := by
    push_cast
    linarith
  split
  next hin => exact ⟨by linarith, hin, k, hsum⟩
  next hout =>
    refine ⟨by linarith, by linarith, k + 1, ?_⟩
    rw [hsum]
    push_cast
    ring

/-- The sample at a count is half the sine of the unreduced phase: the sine has period 2 pi. -/
theorem IsWaveSample.eq {step : ℝ} {q : Nat} {v : ℝ} (h : IsWaveSample step q v) : v = Real.sin (q * step) / 2 := by
  obtain ⟨p, ⟨-, -, k, hk⟩, rfl⟩ := h
  rw [hk, Real.sin_add_int_mul_two_pi]

theorem isPhase_zero (step : ℝ) : IsPhase step 0 0 := ⟨le_rfl, Real.two_pi_pos, 0, by simp⟩

/-- Settles O29: existence and uniqueness by the reduction into [0, 2 pi), the sample by the period of the sine. -/
theorem phaseCountStandsForThePhase : Obligations.PhaseCountStandsForThePhase := by
  intro step hpos hlt
  refine ⟨isPhase_zero step, ⟨0, isPhase_zero step, by simp⟩, fun q => ?_, fun q p h => h.succ hpos hlt,
    fun q v h => ⟨h.eq, ?_⟩⟩
  · exact ⟨_, isPhase_iff.2 rfl, fun p h => (isPhase_iff.1 h).symm⟩
  · have hsin := Real.abs_sin_le_one (q * step)
    rw [h.eq, abs_div, abs_two]
    linarith

end Sys2Proof.Machine
end

section
/-! SUPPORT. Memory (20_memory.md R40 to R43, R51, R54; log 19): the entries of a canonical memory are its reads, what a
completed write access stored, and which instructions and transactions leave every byte as it was. -/

namespace Sys2Proof.Machine

variable {cf : Config}

/-! ## Bytes and words -/

/-- A byte read sees nothing of a memory but what it holds at that address. -/
theorem readByte_congr {m m' : Memory} {a : Nat} (h : Memory.lookup cf m a = Memory.lookup cf m' a) :
    readByte cf m a = readByte cf m' a := by
  rw [readByte, readByte, h]

/-- Settles O14, by the read after a store. -/
theorem byteWriteSetsOneAddress : Obligations.ByteWriteSetsOneAddress := by
  intro c m a v ha
  refine ⟨Memory.store c m a v, writeByte_eq_ok.2 ⟨ha, rfl⟩, readByte_eq_ok.2 ⟨ha, ?_⟩,
    fun b hb => readByte_congr ?_⟩
  · rw [Memory.lookup_store, if_pos rfl]
  · rw [Memory.lookup_store, if_neg hb]

/-- Settles O15: the word of the two bytes, read as a number. -/
theorem wordReadIsBigEndian : Obligations.WordReadIsBigEndian := by
  intro c m a hi lo hhi hlo
  refine ⟨wordOfBytes hi lo, readWord_of_readByte hhi hlo, ?_⟩
  rw [wordOfBytes_toNat, Nat.mul_comm]

/-! ## The canonical form -/

/-- Where addresses rise strictly, a listed byte is what its address reads as. -/
theorem Memory.lookup_of_mem {m : Memory} (h : m.Pairwise (fun x y => x.1 < y.1)) {a : Nat} {b : Byte}
    (hin : (a, b) ∈ m) : Memory.lookup cf m a = b := by
  induction m with
  | nil => cases hin
  | cons e m ih =>
    obtain ⟨hhead, htail⟩ := List.pairwise_cons.1 h
    rw [Memory.lookup_cons]
    rcases List.mem_cons.1 hin with rfl | hin
    · exact if_pos rfl
    · rw [if_neg (hhead _ hin).ne, ih htail hin]

/-- What differs from the reset contents is listed. -/
theorem Memory.mem_of_lookup_ne {m : Memory} {a : Nat} (h : Memory.lookup cf m a ≠ resetByte cf a) :
    (a, Memory.lookup cf m a) ∈ m := by
  induction m with
  | nil => exact absurd rfl h
  | cons e m ih =>
    obtain ⟨k, b⟩ := e
    by_cases hk : k = a
    · rw [Memory.lookup_cons, if_pos hk, hk]
      exact List.mem_cons_self
    · rw [Memory.lookup_cons, if_neg hk] at h ⊢
      exact List.mem_cons_of_mem _ (ih h)

/-- The entries of a canonical memory are its reads that differ from the reset contents (log 19). -/
theorem Memory.mem_iff_readByte {m : Memory} (h : Memory.wf cf m) {a : Nat} {b : Byte} :
    (a, b) ∈ m ↔ readByte cf m a = .ok b ∧ b ≠ resetByte cf a := by
  obtain ⟨hrising, hentries⟩ := h
  constructor
  · intro hin
    obtain ⟨ha, hb⟩ := hentries _ hin
    exact ⟨readByte_eq_ok.2 ⟨ha, Memory.lookup_of_mem hrising hin⟩, hb⟩
  · rintro ⟨hread, hb⟩
    obtain ⟨-, rfl⟩ := readByte_eq_ok.1 hread
    exact Memory.mem_of_lookup_ne hb

/-- Settles O16: reading alike gives the two memories the same entries, and strictly rising addresses fix their order. -/
theorem canonicalMemoriesReadingAlikeAreEqual : Obligations.CanonicalMemoriesReadingAlikeAreEqual := by
  intro c m₁ m₂ h₁ h₂ halike
  have hsame : ∀ e, e ∈ m₁ ↔ e ∈ m₂ := fun (a, b) => by
    rw [Memory.mem_iff_readByte h₁, Memory.mem_iff_readByte h₂, halike]
  exact List.Pairwise.eq_of_mem_iff (r := Prod.fst ⁻¹'o (· < ·)) h₁.1 h₂.1 hsame

/-! ## Stored registers -/

/-- A write access that completes lies in memory. -/
theorem writeBytes_inRange {m m' : Memory} {a : Nat} {bs : List Byte} (e : writeBytes cf m a bs = .ok m')
    (hpos : 0 < bs.length) : a + bs.length ≤ cf.memSize := by
  by_contra hout
  rw [writeBytes_error m a bs hpos (by omega)] at e
  cases e

/-- After a write access that completes, the bytes written read as written (20_memory.md R41, R42). -/
theorem readByte_of_writeBytes {m m' : Memory} {a k : Nat} {bs : List Byte} (e : writeBytes cf m a bs = .ok m')
    (hk : k < bs.length) : readByte cf m' (a + k) = .ok (bs.getD k 0) := by
  have hin := writeBytes_inRange e (by omega)
  obtain ⟨m'', e', hlookup, -⟩ := writeBytes_ok m a bs hin
  obtain rfl : m' = m'' := Except.ok.inj (e.symm.trans e')
  refine readByte_eq_ok.2 ⟨by omega, ?_⟩
  rw [hlookup, if_pos (by omega), Nat.add_sub_cancel_left]

/-- `Fx55` completes where its write access does, with that memory and nothing else new (42_index_memory.md R124). -/
theorem exec_storeRegs_next {x : Reg} {s t : State} (e : exec (.storeRegs x) s = .next t) :
    ∃ m, writeBytes s.config s.mem s.index.toNat (regsUpTo s x) = .ok m ∧ t = s.setMem m := by
  replace e : execStoreRegs x s = .next t := e
  unfold execStoreRegs at e
  split at e
  next m hm =>
    cases e
    exact ⟨m, hm, rfl⟩
  next => cases e

/-- After `Fx55` completes, `V[j]` is the byte at `I + j` (42_index_memory.md R124). -/
theorem byteAt_of_storeRegs {x j : Reg} {s t : State} (e : exec (.storeRegs x) s = .next t) (hj : j ≤ x) :
    t.byteAt (s.index.toNat + j.val) = .ok (s.reg j) := by
  obtain ⟨m, hm, rfl⟩ := exec_storeRegs_next e
  have hlen : j.val < (regsUpTo s x).length := by
    rw [regsUpTo_length]
    exact Nat.lt_succ_of_le hj
  exact (readByte_of_writeBytes hm hlen).trans (congrArg Except.ok (regsUpTo_getD s x j.val hj))

/-- Settles O17: each of the two bytes is a register just stored. -/
theorem nextFetchSeesStoredRegisters : Obligations.NextFetchSeesStoredRegisters := by
  intro x s t e j k hjk hkx
  have hjx : j ≤ x := le_trans (Fin.le_def.2 (by omega)) hkx
  have hlo := byteAt_of_storeRegs e hkx
  rw [hjk, ← Nat.add_assoc] at hlo
  exact readWord_of_readByte (byteAt_of_storeRegs e hjx) hlo

/-! ## The writers of memory -/

/-- What holds of a machine and of the state a transaction leaves it in holds whether or not the machine accepts it. -/
theorem whenRunning_keeps {P : State → Prop} {s : State} {r : Reply × State} (hs : P s) (hr : P r.2) :
    P (whenRunning s r).2 := by
  cases h : s.status with
  | running =>
    rw [whenRunning_of_running h]
    exact hr
  | aborted =>
    rw [whenRunning_of_aborted h]
    exact hs

/-- Settles O21: `mayWrite` lists two writers of a byte, and the three transactions write other fields or none. -/
theorem onlyTwoInstructionsChangeMemory : Obligations.OnlyTwoInstructionsChangeMemory := by
  refine ⟨fun i s t e hldB hstore a => exec_changesOnly e (.byte a) ?_, fun s k p x y a => ?_⟩
  · rintro (⟨x, h⟩ | ⟨x, h⟩)
    exacts [hldB x h, hstore x h]
  · have hkeep {r : Reply × State} (hr : r.2.byteAt a = s.byteAt a) :
        (whenRunning s r).2.byteAt a = s.byteAt a :=
      whenRunning_keeps (P := fun t => t.byteAt a = s.byteAt a) rfl hr
    exact ⟨hkeep rfl, hkeep rfl, hkeep rfl⟩

end Sys2Proof.Machine
end

section
/-! SUPPORT. Encoding (30_encoding.md R60 to R66, R72): a word is the format of its fields, so what dispatch answers is
encoded by the word it came from; the rows of the opcode map are dispatch's conditions; no instruction is refused. -/

namespace Sys2Proof

/-! ## The fields of a word -/

/-- Masking with `k` ones is the remainder by `2 ^ k`. -/
theorem toNat_and_ones (v : Word) (k : Nat) (hk : k ≤ 16) :
    (v &&& BitVec.ofNat 16 (2 ^ k - 1)).toNat = v.toNat % 2 ^ k := by
  have hpow : 2 ^ k ≤ 2 ^ 16 := Nat.pow_le_pow_right (by decide) hk
  have hlt : 2 ^ k - 1 < 2 ^ 16 := by omega
  rw [BitVec.toNat_and, BitVec.toNat_ofNat, Nat.mod_eq_of_lt hlt, Nat.and_two_pow_sub_one_eq_mod]

/-- Settles O11: shifting divides, masking takes the remainder, and both sides are the same digit of the word. -/
theorem fieldsAgreeWithMasking : Obligations.FieldsAgreeWithMasking := by
  intro v
  have nibble (s : Nat) : ((v >>> s) &&& 0xF).toNat = v.toNat / 2 ^ s % 16 := by
    rw [← Nat.shiftRight_eq_div_pow, ← BitVec.toNat_ushiftRight]
    exact toNat_and_ones _ 4 (by decide)
  refine ⟨(nib1_toNat v).trans (nibble 12).symm, (nib2_toNat v).trans (nibble 8).symm,
    (nib3_toNat v).trans (nibble 4).symm, (nib4_toNat v).trans (toNat_and_ones v 4 (by decide)).symm,
    (fieldNnn_toNat v).trans (toNat_and_ones v 12 (by decide)).symm,
    (fieldKk_toNat v).trans (toNat_and_ones v 8 (by decide)).symm, BitVec.eq_of_toNat_eq ?_⟩
  rw [append_toNat, append_toNat, append_toNat, toNat_eq_nibbles v]
  omega

section Formats
variable {w : Word} {a n : Nibble} {kk : Byte}

/-- A word of format `NNN` is made of its fields (R62). -/
theorem wordNNN_fields (ha : nib1 w = a) : wordNNN a (fieldNnn w) = w := by
  refine BitVec.eq_of_toNat_eq ?_
  rw [wordNNN_toNat, ← ha, nib1_toNat, fieldNnn_toNat]
  omega

/-- A word of format `XKK` is made of its fields (R62). -/
theorem wordXKK_fields (ha : nib1 w = a) : wordXKK a (selX w) (fieldKk w) = w := by
  refine BitVec.eq_of_toNat_eq ?_
  rw [wordXKK_toNat, ← bitsOfReg_toNat, selX, bitsOfReg_regOfBits, ← ha, nib1_toNat, nib2_toNat, fieldKk_toNat]
  omega

/-- A word of format `X` is made of its selector and the fixed sub-opcode (R62). -/
theorem wordXKK_of_fields (h : nib1 w = a ∧ fieldKk w = kk) : wordXKK a (selX w) kk = w :=
  h.2 ▸ wordXKK_fields h.1

/-- A word of format `XYN` is made of its fields (R62). -/
theorem wordXYN_fields (ha : nib1 w = a) : wordXYN a (selX w) (selY w) (nib4 w) = w := by
  refine BitVec.eq_of_toNat_eq ?_
  rw [wordXYN_toNat, toNat_eq_nibbles w, ha]
  rfl

/-- A word of format `XY` is made of its selectors and the fixed sub-opcode (R62). -/
theorem wordXYN_of_fields (h : nib1 w = a ∧ nib4 w = n) : wordXYN a (selX w) (selY w) n = w :=
  h.2 ▸ wordXYN_fields h.1

end Formats

/-- A word is its two bytes, the high one first (R60). -/
theorem wordOfBytes_extract (w : Word) : wordOfBytes (w.extractLsb' 8 8) (w.extractLsb' 0 8) = w := by
  refine BitVec.eq_of_toNat_eq ?_
  rw [wordOfBytes_toNat, BitVec.extractLsb'_toNat, BitVec.extractLsb'_toNat, Nat.shiftRight_eq_div_pow]
  omega

/-! ## Decode of encode -/

/-- The two words that dispatch tries before the catch-all `0nnn` are in group 0 (R64). -/
theorem ne_fixed_of_nib1 {w : Word} (h : nib1 w ≠ 0x0) : w ≠ 0x00E0#16 ∧ w ≠ 0x00EE#16 :=
  ⟨fun e => h (e ▸ rfl), fun e => h (e ▸ rfl)⟩

/-- `SYS` is well formed where its word is neither of the two fixed words (R64). -/
theorem sysOperandOk_iff (nnn : Addr) :
    sysOperandOk nnn = true ↔ wordNNN 0x0 nnn ≠ 0x00E0 ∧ wordNNN 0x0 nnn ≠ 0x00EE := by
  have word_eq (c : Addr) : wordNNN 0x0 nnn = wordNNN 0x0 c ↔ nnn = c :=
    ⟨fun e => by simpa using congrArg fieldNnn e, congrArg _⟩
  rw [sysOperandOk, Bool.and_eq_true, bne_iff_ne, bne_iff_ne]
  exact and_congr (not_congr (word_eq 0x0E0).symm) (not_congr (word_eq 0x0EE).symm)

/-- Dispatch finds the row an instruction was encoded by: no earlier row has its major opcode and sub-opcode (R64). -/
theorem decode_encode {i : Instr} (hwf : i.wf = true) : decode (encode i) = .ok i := by
  cases i with
  | cls | ret => rfl
  | sys nnn =>
    obtain ⟨hcls, hret⟩ := (sysOperandOk_iff nnn).1 hwf
    rw [decode, encode, if_neg hcls, if_neg hret, if_pos (nib1_wordNNN _ _), fieldNnn_wordNNN]
  | _ => simp [decode, encode, ne_fixed_of_nib1]

/-- `decodeBytes` reads one word and leaves the rest (R60). -/
theorem decodeBytes_of_decode {hi lo : Byte} {i : Instr} (rest : List Byte)
    (h : decode (wordOfBytes hi lo) = .ok i) : decodeBytes (hi :: lo :: rest) = .ok (i, rest) := by
  simp only [decodeBytes, h]

/-- Settles O8: dispatch finds the row of the encoding, and the two bytes make up the word again. -/
theorem decodeOfEncodeIsTheInstruction : Obligations.DecodeOfEncodeIsTheInstruction := by
  intro i rest hwf
  have hword := decode_encode hwf
  refine ⟨hword, decodeBytes_of_decode rest ?_⟩
  rw [wordOfBytes_extract, hword]

/-! ## Encode of decode -/

/-- `P` holds of the instruction a word decodes to; of a rejection nothing is said. -/
def OnDecoded (P : Instr → Prop) (r : Except DecodeError Instr) : Prop := ∀ i, r = .ok i → P i

/-- One more pattern in front of a dispatch: `P` holds of its instruction, and of the rest where it does not match. -/
theorem OnDecoded.ite {P : Instr → Prop} {c : Prop} [Decidable c] {i : Instr} {r : Except DecodeError Instr}
    (hmatch : c → P i) (hrest : ¬ c → OnDecoded P r) : OnDecoded P (if c then .ok i else r) := by
  split
  next hc =>
    rintro _ ⟨⟩
    exact hmatch hc
  next hc => exact hrest hc

/-- `i` is the one meaning of the word `w`. -/
def IsMeaning (w : Word) (i : Instr) : Prop := i.wf = true ∧ encode i = w

/-- Dispatch row by row: the row that matches fixes the word's fixed fields, and the operands are the others. -/
theorem decode_onDecoded_isMeaning (w : Word) : OnDecoded (IsMeaning w) (decode w) := by
  unfold decode
  refine .ite (fun hw => ⟨rfl, hw.symm⟩) fun hcls => ?_ -- 00E0
  refine .ite (fun hw => ⟨rfl, hw.symm⟩) fun hret => ?_ -- 00EE
  refine .ite (fun h => ⟨(sysOperandOk_iff _).2 ?_, wordNNN_fields h⟩) fun _ => ?_ -- 0nnn
  · rw [wordNNN_fields h]
    exact ⟨hcls, hret⟩
  iterate 2 refine .ite (fun h => ⟨rfl, wordNNN_fields h⟩) fun _ => ?_ -- 1nnn, 2nnn
  iterate 2 refine .ite (fun h => ⟨rfl, wordXKK_fields h⟩) fun _ => ?_ -- 3xkk, 4xkk
  refine .ite (fun h => ⟨rfl, wordXYN_of_fields h⟩) fun _ => ?_ -- 5xy0
  iterate 2 refine .ite (fun h => ⟨rfl, wordXKK_fields h⟩) fun _ => ?_ -- 6xkk, 7xkk
  iterate 10 refine .ite (fun h => ⟨rfl, wordXYN_of_fields h⟩) fun _ => ?_ -- 8xy0 to 9xy0
  iterate 2 refine .ite (fun h => ⟨rfl, wordNNN_fields h⟩) fun _ => ?_ -- Annn, Bnnn
  refine .ite (fun h => ⟨rfl, wordXKK_fields h⟩) fun _ => ?_ -- Cxkk
  refine .ite (fun h => ⟨rfl, wordXYN_fields h⟩) fun _ => ?_ -- Dxyn
  iterate 11 refine .ite (fun h => ⟨rfl, wordXKK_of_fields h⟩) fun _ => ?_ -- Ex9E to Fx65
  rintro _ ⟨⟩

/-- Settles O9: the fields of the word are the operands of the instruction it decodes to. -/
theorem encodeOfDecodeIsTheWord : Obligations.EncodeOfDecodeIsTheWord :=
  decode_onDecoded_isMeaning

/-! ## The opcode map -/

section Rows
variable {w : Word} {p : String} (a n : Nibble) (kk : Byte)

/-- A row of format `FIXED` selects its one word (R65). -/
theorem eq_iff_selects (v : Word) : w = v ↔ OpcodeRow.selects ⟨p, 0xFFFF, v⟩ w := by
  have hmask : w &&& 0xFFFF = w := BitVec.and_allOnes
  rw [OpcodeRow.selects, hmask, beq_iff_eq]

/-- A row of format `NNN`, `XKK` or `XYN` selects by the major opcode (R65). -/
theorem nib1_iff_selects : nib1 w = a ↔ OpcodeRow.selects ⟨p, 0xF000, wordNNN a 0⟩ w := by
  have hmask : wordNNN (nib1 w) (fieldNnn w) &&& (0xF#4 ++ 0#12) = wordNNN (nib1 w) 0 := by
    rw [wordNNN, BitVec.and_append]
    exact congrArg₂ _ BitVec.and_allOnes BitVec.and_zero
  rw [wordNNN_fields rfl] at hmask
  rw [OpcodeRow.selects, beq_iff_eq]
  exact ⟨fun h => h ▸ hmask, fun h => by simpa using congrArg nib1 (hmask.symm.trans h)⟩

/-- A row of format `XY` selects by the major opcode and the last nibble (R65). -/
theorem nib1_nib4_iff_selects :
    nib1 w = a ∧ nib4 w = n ↔ OpcodeRow.selects ⟨p, 0xF00F, wordXYN a 0 0 n⟩ w := by
  have hmask : wordXYN (nib1 w) (selX w) (selY w) (nib4 w) &&& (0xF#4 ++ 0#4 ++ 0#4 ++ 0xF#4) =
      wordXYN (nib1 w) 0 0 (nib4 w) := by
    rw [wordXYN, BitVec.and_append, BitVec.and_append, BitVec.and_append]
    exact congrArg₂ _ (congrArg₂ _ (congrArg₂ _ BitVec.and_allOnes BitVec.and_zero) BitVec.and_zero)
      BitVec.and_allOnes
  rw [wordXYN_fields rfl] at hmask
  rw [OpcodeRow.selects, beq_iff_eq]
  refine ⟨fun ⟨ha, hn⟩ => ha ▸ hn ▸ hmask, fun h => ?_⟩
  have hword := hmask.symm.trans h
  exact ⟨by simpa using congrArg nib1 hword, by simpa using congrArg nib4 hword⟩

/-- A row of format `X` selects by the major opcode and the low byte (R65). -/
theorem nib1_fieldKk_iff_selects :
    nib1 w = a ∧ fieldKk w = kk ↔ OpcodeRow.selects ⟨p, 0xF0FF, wordXKK a 0 kk⟩ w := by
  have hmask : wordXKK (nib1 w) (selX w) (fieldKk w) &&& (0xF#4 ++ 0#4 ++ 0xFF#8) =
      wordXKK (nib1 w) 0 (fieldKk w) := by
    rw [wordXKK, BitVec.and_append, BitVec.and_append]
    exact congrArg₂ _ (congrArg₂ _ BitVec.and_allOnes BitVec.and_zero) BitVec.and_allOnes
  rw [wordXKK_fields rfl] at hmask
  rw [OpcodeRow.selects, beq_iff_eq]
  refine ⟨fun ⟨ha, hkk⟩ => ha ▸ hkk ▸ hmask, fun h => ?_⟩
  have hword := hmask.symm.trans h
  exact ⟨by simpa using congrArg nib1 hword, by simpa using congrArg fieldKk hword⟩
end Rows

/-- A dispatch answers an instruction of the first of the rows that `w` matches, or rejects where it matches none. -/
def FollowsRows (w : Word) (r : Except DecodeError Instr) (rows : List OpcodeRow) : Prop :=
  r.toOption.map patternOf = (rows.find? fun row => row.selects w).map fun row => row.pattern

/-- One more pattern in front of a dispatch is one more row. -/
theorem FollowsRows.cons {w : Word} {c : Prop} [Decidable c] {i : Instr} {r : Except DecodeError Instr}
    {row : OpcodeRow} {rows : List OpcodeRow} (hselects : c ↔ row.selects w) (hpattern : patternOf i = row.pattern)
    (hrest : FollowsRows w r rows) : FollowsRows w (if c then .ok i else r) (row :: rows) := by
  unfold FollowsRows
  by_cases hc : c
  · rw [if_pos hc, List.find?_cons_of_pos (p := fun row : OpcodeRow => row.selects w) (hselects.1 hc)]
    exact congrArg some hpattern
  · rw [if_neg hc, List.find?_cons_of_neg (p := fun row : OpcodeRow => row.selects w) (mt hselects.2 hc)]
    exact hrest

/-- Dispatch and the opcode map, row by row: each condition is the selection of its row. -/
theorem decode_followsRows (w : Word) : FollowsRows w (decode w) opcodeMap := by
  unfold decode
  iterate 2 refine .cons (eq_iff_selects _) rfl ?_ -- 00E0, 00EE
  iterate 5 refine .cons (nib1_iff_selects _) rfl ?_ -- 0nnn to 4xkk
  refine .cons (nib1_nib4_iff_selects _ _) rfl ?_ -- 5xy0
  iterate 2 refine .cons (nib1_iff_selects _) rfl ?_ -- 6xkk, 7xkk
  iterate 10 refine .cons (nib1_nib4_iff_selects _ _) rfl ?_ -- 8xy0 to 9xy0
  iterate 4 refine .cons (nib1_iff_selects _) rfl ?_ -- Annn to Dxyn
  iterate 11 refine .cons (nib1_fieldKk_iff_selects _ _) rfl ?_ -- Ex9E to Fx65
  rfl

/-- The pattern of a decoded word, and none of a rejected one. -/
theorem decodedPattern_eq (w : Word) : decodedPattern w = (decode w).toOption.map patternOf := by
  unfold decodedPattern
  cases decode w <;> rfl

/-- Settles O12: dispatch tries the conditions of the rows in the order of the map. -/
theorem decodeFollowsTheOpcodeMap : Obligations.DecodeFollowsTheOpcodeMap :=
  fun w => (decodedPattern_eq w).trans (decode_followsRows w)

/-! ## The illegal words -/

/-- A dispatch rejects where its first pattern does not match and the rest rejects. -/
theorem ite_ok_eq_error_iff {c : Prop} [Decidable c] {i : Instr} {r : Except DecodeError Instr} {e : DecodeError} :
    (if c then .ok i else r) = .error e ↔ ¬ c ∧ r = .error e := by
  by_cases hc : c <;> simp [hc]

/-- In group 8 the sub-opcodes the table of R66 lists are those no row of the map has. -/
theorem illegalSubOpcode_iff (n : Nibble) :
    n.toNat ∈ [0x8, 0x9, 0xA, 0xB, 0xC, 0xD, 0xF] ↔ n ∉ [0x0, 0x1, 0x2, 0x3, 0x4, 0x5, 0x6, 0x7, 0xE] := by
  revert n
  decide

/-- Settles O10: a word is rejected where all 35 conditions fail. The major opcode alone decides them but in the five
groups of the table, and there what is left of them is the group's condition on the last nibble or the low byte. -/
theorem illegalWordsAreExactlyTheListed : Obligations.IllegalWordsAreExactlyTheListed := by
  intro w
  have hmajor : w.toNat / 0x1000 = (nib1 w).toNat := by
    rw [nib1_toNat]
    omega
  have hlast (n : Nibble) : nib4 w = n ↔ (nib4 w).toNat = n.toNat := BitVec.toNat_inj.symm
  have hlow (kk : Byte) : fieldKk w = kk ↔ (fieldKk w).toNat = kk.toNat := BitVec.toNat_inj.symm
  rw [hmajor, ← nib4_toNat, ← fieldKk_toNat, illegalSubOpcode_iff]
  simp only [decode, ite_ok_eq_error_iff]
  obtain ⟨a, ha⟩ : ∃ a : Fin 16, nib1 w = BitVec.ofFin a := ⟨_, rfl⟩
  fin_cases a <;> simp [ha, ne_fixed_of_nib1, hlast, hlow]

/-- Settles O13: dispatch evaluated at each word. -/
theorem wordsOfTheSpecDecode : Obligations.WordsOfTheSpecDecode :=
  ⟨rfl, rfl, rfl, rfl, rfl, rfl, rfl, rfl, rfl, rfl, rfl, rfl, rfl, rfl⟩

end Sys2Proof

namespace Sys2Proof.Machine

/-! ## Every instruction has a meaning -/

/-- Settles O7: an arm of `exec` completes, or branches on its one operation and then completes or aborts. -/
theorem noInstructionIsRefused : Obligations.NoInstructionIsRefused := by
  intro i s r
  cases i with
  | ret | call | drw | skp | sknp | ldVxK | ldF | ldB | storeRegs | loadRegs =>
    simp only [exec, execRet, execCall, execDrw, execSkp, execSknp, execLdVxK, execLdF, execLdB, execStoreRegs,
      execLoadRegs]
    split <;> exact nofun
  | _ => exact nofun

end Sys2Proof.Machine
end

section
/-! SUPPORT. Control transfer (40_flow.md R80 to R92): a written-out word decodes to the instruction it encodes, the
stack operations at a known depth, and the `pc` after a skip. -/

namespace Sys2Proof

/-- The number of an instruction's encoding, read as a word, decodes to the instruction (30_encoding.md R64, R65). -/
theorem decode_ofNat_of_encode {i : Instr} {k : Nat} (hwf : i.wf = true) (hk : (encode i).toNat = k) :
    decode (BitVec.ofNat 16 k) = .ok i := by
  rw [← hk, BitVec.ofNat_toNat, BitVec.setWidth_eq]
  exact decode_encode hwf

end Sys2Proof

namespace Sys2Proof.Machine

variable {s : State}

/-! ## The stack -/

/-- A push at depth `j` writes slot `j` and counts up (40_flow.md R80). -/
theorem push_of_room {j : Fin 16} (v : Word) (hsp : s.sp.val = j.val) (hroom : j.val < s.config.stackDepth.val) :
    push v s = .ok (s.setStack j.succ (s.stk.set j.val v)) := by
  rcases push_cases v s with ⟨-, h, e⟩ | ⟨hfull, -⟩
  · have hsucc : (⟨s.sp.val + 1, Nat.succ_lt_succ h⟩ : Fin 17) = j.succ := Fin.ext (congrArg (· + 1) hsp)
    rw [e, hsucc]
    simp only [hsp]
  · omega

/-- A push on a full stack aborts with the value (40_flow.md R80). -/
theorem push_of_full (v : Word) (hfull : s.config.stackDepth.val ≤ s.sp.val) :
    push v s = .error (.stackOverflow v) := by
  rcases push_cases v s with ⟨hroom, -⟩ | ⟨-, e⟩
  · omega
  · exact e

/-- A pull at depth `j + 1` gives slot `j` and counts down (40_flow.md R81). -/
theorem pull_of_succ {j : Fin 16} (hsp : s.sp.val = j.val + 1) :
    pull s = .ok (s.stk[j.val], s.setStack j.castSucc s.stk) := by
  rcases pull_cases s with ⟨h, e⟩ | ⟨hempty, -⟩
  · have hpred : (⟨s.sp.val - 1, by omega⟩ : Fin 17) = j.castSucc := Fin.ext (Nat.sub_eq_of_eq_add hsp)
    rw [e, hpred]
    simp only [hsp, Nat.add_sub_cancel]
  · omega

/-- A pull from an empty stack aborts (40_flow.md R81). -/
theorem pull_of_empty (hsp : s.sp.val = 0) : pull s = .error .stackUnderflow := by
  rcases pull_cases s with ⟨h, -⟩ | ⟨-, e⟩
  · omega
  · exact e

/-- A stack update that writes slot `j` changes `SP` and that slot. -/
theorem setStack_set_changesOnly {touched : Component → Prop} {j : Fin 16} (sp : Fin 17) (v : Word)
    (hsp : touched .sp) (hslot : touched (.slot j)) :
    ChangesOnly touched s (s.setStack sp (s.stk.set j.val v)) := by
  refine setStack_changesOnly s _ _ hsp fun i hi => Vector.getElem_set_ne _ _ fun hij => hi ?_
  rwa [← Fin.ext hij]

/-- A stack update that keeps the slots changes `SP` alone. -/
theorem setStack_stk_changesOnly {touched : Component → Prop} (sp : Fin 17) (hsp : touched .sp) :
    ChangesOnly touched s (s.setStack sp s.stk) :=
  setStack_changesOnly s sp s.stk hsp fun _ _ => rfl

/-- What a push at depth `j` wrote, the next pull gives back (40_flow.md R80, R81). -/
theorem pull_of_pushed (s : State) (j : Fin 16) (v : Word) :
    pull (s.setStack j.succ (s.stk.set j.val v)) =
      .ok (v, (s.setStack j.succ (s.stk.set j.val v)).setStack j.castSucc (s.stk.set j.val v)) := by
  rw [pull_of_succ (j := j) rfl, State.setStack_stk, Vector.getElem_set_self]

/-- Settles O26: each clause is the stack operation at that depth, and the pull after the push gives slot `j` back. -/
theorem pushThenPullIsLastInFirstOut : Obligations.PushThenPullIsLastInFirstOut := by
  refine fun s v => ⟨fun j hsp hroom => ⟨_, _, push_of_room v hsp hroom, rfl, Vector.getElem_set_self _, ?_,
    pull_of_pushed s j v, rfl, ?_⟩, push_of_full v, fun hdepth hsp => push_of_full v (by omega),
    fun j hsp => ⟨_, pull_of_succ hsp, rfl, ?_⟩, pull_of_empty⟩
  · exact setStack_set_changesOnly _ _ (by simp [among]) (by simp [among])
  · exact setStack_stk_changesOnly _ (by simp [among])
  · exact setStack_stk_changesOnly _ (by simp [among])

/-! ## Jumps and subroutines -/

/-- Moving `pc` is a change of `pc` alone. -/
theorem setPc_changesOnly_pc (s : State) (p : Word) : ChangesOnly (among [.pc]) s (s.setPc p) :=
  setPc_changesOnly s p (List.mem_singleton.2 rfl)

/-- Settles O35: `SYS` is well formed beside the words of `CLS` and `RET`, and its meaning is the state itself. -/
theorem sysChangesNothing : Obligations.SysChangesNothing := by
  refine fun nnn s => ⟨fun hcls hret => ?_, s, rfl, .refl _ s⟩
  have hwf : (Instr.sys nnn).wf = true := Bool.and_eq_true_iff.2 ⟨bne_iff_ne.2 hcls, bne_iff_ne.2 hret⟩
  exact decode_ofNat_of_encode hwf ((wordNNN_toNat 0x0 nnn).trans (Nat.zero_add _))

/-- `RET` after a pull that completes (40_flow.md R84). -/
theorem exec_ret_of_pull {v : Word} {t : State} (e : pull s = .ok (v, t)) : exec .ret s = .next (t.setPc v) := by
  simp only [exec, execRet, e]

/-- `RET` after a pull that aborts (40_flow.md R84). -/
theorem exec_ret_of_error {f : Fault} (e : pull s = .error f) : exec .ret s = .fault f := by
  simp only [exec, execRet, e, abort_eq]

/-- Settles O36, by the pull at a known depth. -/
theorem retPullsThePc : Obligations.RetPullsThePc := by
  refine ⟨rfl, fun s => ⟨fun j hsp => ⟨_, exec_ret_of_pull (pull_of_succ hsp), rfl, rfl, ?_⟩,
    fun hsp => exec_ret_of_error (pull_of_empty hsp)⟩⟩
  exact (setStack_stk_changesOnly _ (by simp [among])).trans (setPc_changesOnly _ _ (by simp [among]))

/-- Settles O37: the address field is the target, zero-extended. -/
theorem jpSetsThePc : Obligations.JpSetsThePc :=
  fun nnn s => ⟨decode_ofNat_of_encode rfl (wordNNN_toNat 0x1 nnn), _, rfl, zextAddr_toNat nnn,
    setPc_changesOnly_pc s _⟩

/-- `CALL` after a push that completes (40_flow.md R86). -/
theorem exec_call_of_push {nnn : Addr} {t : State} (e : push s.pc s = .ok t) :
    exec (.call nnn) s = .next (t.setPc (zextAddr nnn)) := by
  simp only [exec, execCall, e]

/-- `CALL` after a push that aborts (40_flow.md R86). -/
theorem exec_call_of_error {nnn : Addr} {f : Fault} (e : push s.pc s = .error f) :
    exec (.call nnn) s = .fault f := by
  simp only [exec, execCall, e, abort_eq]

/-- Settles O38, by the push at a known depth. -/
theorem callPushesAndJumps : Obligations.CallPushesAndJumps := by
  refine fun nnn s => ⟨decode_ofNat_of_encode rfl (wordNNN_toNat 0x2 nnn), fun j hsp hroom =>
    ⟨_, exec_call_of_push (push_of_room s.pc hsp hroom), Vector.getElem_set_self _, rfl, zextAddr_toNat nnn, ?_⟩,
    fun hfull => exec_call_of_error (push_of_full s.pc hfull)⟩
  exact (setStack_set_changesOnly _ _ (by simp [among]) (by simp [among])).trans
    (setPc_changesOnly _ _ (by simp [among]))

/-- Settles O41: the sum of a 12-bit address and a byte fits in 16 bits. -/
theorem jpV0AddsV0ToTheTarget : Obligations.JpV0AddsV0ToTheTarget := by
  refine fun nnn s => ⟨decode_ofNat_of_encode rfl (wordNNN_toNat 0xB nnn), _, rfl, ?_, setPc_changesOnly_pc s _⟩
  rw [State.setPc_pc, BitVec.toNat_add, zextAddr_toNat, zextByte_toNat, zeroReg]
  omega

/-! ## Skips -/

/-- The `pc` after a skip on equality (40_flow.md R82). -/
theorem skipIf_beq_pc (a b : Byte) (s : State) : (skipIf (a == b) s).pc = if a = b then s.pc + 2 else s.pc := by
  simp only [skipIf_eq, State.setPc_pc, beq_iff_eq]

/-- The `pc` after a skip on inequality (40_flow.md R82). -/
theorem skipIf_bne_pc (a b : Byte) (s : State) : (skipIf (a != b) s).pc = if a = b then s.pc else s.pc + 2 := by
  simp only [skipIf_eq, State.setPc_pc, bne_iff_ne, ite_not]

/-- A skip changes `pc` alone. -/
theorem skipIf_changesOnly_pc (c : Bool) (s : State) : ChangesOnly (among [.pc]) s (skipIf c s) :=
  skipIf_changesOnly s c (List.mem_singleton.2 rfl)

/-- Settles O39: each meaning is a skip on the comparison with `kk`. -/
theorem immediateSkipsFollowTheComparison : Obligations.ImmediateSkipsFollowTheComparison :=
  fun x kk s => ⟨decode_ofNat_of_encode rfl (wordXKK_toNat 0x3 x kk),
    decode_ofNat_of_encode rfl (wordXKK_toNat 0x4 x kk),
    ⟨_, rfl, skipIf_beq_pc _ _ s, skipIf_changesOnly_pc _ s⟩,
    ⟨_, rfl, skipIf_bne_pc _ _ s, skipIf_changesOnly_pc _ s⟩⟩

/-- Settles O40: each meaning is a skip on the comparison of the two registers. -/
theorem registerSkipsFollowTheComparison : Obligations.RegisterSkipsFollowTheComparison :=
  fun x y s => ⟨decode_ofNat_of_encode rfl (wordXYN_toNat 0x5 x y 0x0),
    decode_ofNat_of_encode rfl (wordXYN_toNat 0x9 x y 0x0),
    ⟨_, rfl, skipIf_beq_pc _ _ s, skipIf_changesOnly_pc _ s⟩,
    ⟨_, rfl, skipIf_bne_pc _ _ s, skipIf_changesOnly_pc _ s⟩⟩

end Sys2Proof.Machine
end

section
/-! SUPPORT. The register unit (41_alu.md R100 to R115): what one register write leaves, the result before the flag, the
flag before a shift, and the arithmetic of bytes and flags as numbers. -/

namespace Sys2Proof

/-- The word `8xyn` of an instruction decodes to it (30_encoding.md R64, R65). -/
theorem decode_8xyn {i : Instr} {x y : Reg} (n : Nibble) (hwf : i.wf = true)
    (henc : encode i = wordXYN 0x8 x y n) :
    decode (BitVec.ofNat 16 (0x8000 + n.toNat + 0x100 * x.val + 0x10 * y.val)) = .ok i := by
  refine decode_ofNat_of_encode hwf ?_
  have hmajor : (0x8 : Nibble).toNat = 8 := rfl
  rw [henc, wordXYN_toNat, hmajor]
  omega

end Sys2Proof

namespace Sys2Proof.Machine

variable (s : State) (x : Reg)

/-! ## One register -/

/-- A written register reads as written (10_state.md R10). -/
theorem setReg_reg_self (b : Byte) : (s.setReg x b).reg x = b := by
  rw [State.setReg_reg, if_pos rfl]

/-- A write of `VF` shows in register 15 alone (10_state.md R17). -/
theorem setFlag_reg (b : Byte) (q : Reg) : (s.setFlag b).reg q = if q = 15 then b else s.reg q :=
  State.setReg_reg s flagReg q b

/-- Writing `V[x]` is a change of `V[x]` alone. -/
theorem setReg_changesOnly_reg (b : Byte) : ChangesOnly (among [.reg x]) s (s.setReg x b) :=
  setReg_changesOnly s x b (List.mem_singleton.2 rfl)

/-- Settles O42: the meaning is the one write of `kk`. -/
theorem ldImmediateLoadsVx : Obligations.LdImmediateLoadsVx :=
  fun x kk s => ⟨decode_ofNat_of_encode rfl (wordXKK_toNat 0x6 x kk), _, rfl, setReg_reg_self s x _,
    setReg_changesOnly_reg s x _⟩

/-- Settles O43: the sum of bytes is the sum of their numbers modulo 256. -/
theorem addImmediateWrapsWithoutFlag : Obligations.AddImmediateWrapsWithoutFlag := by
  refine fun x kk s => ⟨decode_ofNat_of_encode rfl (wordXKK_toNat 0x7 x kk), _, rfl, ?_, setReg_changesOnly_reg s x _⟩
  rw [setReg_reg_self, BitVec.toNat_add]

/-- Settles O44: the meaning is the one write of `V[y]`. -/
theorem ldRegisterCopiesVy : Obligations.LdRegisterCopiesVy :=
  fun x _ s => ⟨decode_8xyn 0x0 rfl rfl, _, rfl, setReg_reg_self s x _, setReg_changesOnly_reg s x _⟩

/-- Settles O45: each meaning is the one write of the bitwise operation. -/
theorem logicActsBitwiseWithoutFlag : Obligations.LogicActsBitwiseWithoutFlag := by
  refine fun x y s => ⟨decode_8xyn 0x1 rfl rfl, decode_8xyn 0x2 rfl rfl, decode_8xyn 0x3 rfl rfl,
    ⟨_, rfl, setReg_changesOnly_reg s x _, fun b => ?_⟩, ⟨_, rfl, setReg_changesOnly_reg s x _, fun b => ?_⟩,
    ⟨_, rfl, setReg_changesOnly_reg s x _, fun b => ?_⟩⟩
  · rw [setReg_reg_self, BitVec.getLsbD_or]
  · rw [setReg_reg_self, BitVec.getLsbD_and]
  · rw [setReg_reg_self, BitVec.getLsbD_xor]

/-- Settles O49: the draw counts up, then the masked byte is written; the counter is no register. -/
theorem rndMasksOneFreeDraw : Obligations.RndMasksOneFreeDraw := by
  refine fun x kk s => ⟨decode_ofNat_of_encode rfl (wordXKK_toNat 0xC x kk), _, rfl, setReg_reg_self _ x _, rfl, ?_⟩
  exact (setDraws_changesOnly s _ (by simp [among])).trans (setReg_changesOnly _ x _ (by simp [among]))

/-! ## The result, then the flag -/

/-- The flag is written last, so it is what `VF` holds. -/
theorem setFlag_reg_fifteen (b : Byte) : (s.setFlag b).reg 15 = b := setReg_reg_self s flagReg b

/-- After the result and then the flag, `V[x]` is the result, and the flag when `x` is 15 (41_alu.md R114). -/
theorem reg_of_setReg_setFlag (b f : Byte) :
    ((s.setReg x b).setFlag f).reg x = if x = 15 then ((s.setReg x b).setFlag f).reg 15 else b := by
  rw [setFlag_reg_fifteen, setFlag_reg, setReg_reg_self]

/-- Writing `V[x]` and then `VF` changes these two alone. -/
theorem setReg_setFlag_changesOnly (b f : Byte) :
    ChangesOnly (among [.reg x, .reg 15]) s ((s.setReg x b).setFlag f) :=
  (setReg_changesOnly s x b (by simp [among])).trans (setFlag_changesOnly _ f (by simp [among, flagReg]))

/-- The flag of `8xy4` (41_alu.md R115). -/
theorem flagByte_carries (a b : Byte) : flagByte (carries a b) = if 255 < a.toNat + b.toNat then 1 else 0 := by
  simp only [flagByte, carries, decide_eq_true_eq]

/-- The flag of `8xy5` and `8xy7` (41_alu.md R115). -/
theorem flagByte_borrows (a b : Byte) : flagByte (borrows a b) = if a.toNat < b.toNat then 1 else 0 := by
  simp only [flagByte, borrows, decide_eq_true_eq]

/-- The difference of bytes is the difference of their numbers modulo 256. -/
theorem byte_sub_toNat (a b : Byte) : (a - b).toNat = (256 + a.toNat - b.toNat) % 256 := by
  rw [BitVec.toNat_sub]
  omega

/-- Settles O46: the result, then the carry. -/
theorem addRegisterSetsCarry : Obligations.AddRegisterSetsCarry := by
  refine fun x y s => ⟨decode_8xyn 0x4 rfl rfl, _, rfl, ?_, ?_, setReg_setFlag_changesOnly s x _ _⟩
  · rw [setFlag_reg_fifteen, flagByte_carries]
  · rw [reg_of_setReg_setFlag, apply_ite BitVec.toNat, BitVec.toNat_add]

/-- What `SUB` and `SUBN` leave: the difference, then the borrow (41_alu.md R107, R109). -/
theorem setReg_sub_setFlag_borrows (a b : Byte) :
    let t := (s.setReg x (a - b)).setFlag (flagByte (borrows a b))
    t.reg 15 = (if a.toNat < b.toNat then 1 else 0) ∧
      (t.reg x).toNat = (if x = 15 then (t.reg 15).toNat else (256 + a.toNat - b.toNat) % 256) ∧
      ChangesOnly (among [.reg x, .reg 15]) s t := by
  refine ⟨?_, ?_, setReg_setFlag_changesOnly s x _ _⟩
  · rw [setFlag_reg_fifteen, flagByte_borrows]
  · rw [reg_of_setReg_setFlag, apply_ite BitVec.toNat, byte_sub_toNat]

/-- Settles O47: the two meanings differ in which register is the minuend. -/
theorem subtractionsSetBorrow : Obligations.SubtractionsSetBorrow :=
  fun x y s => ⟨decode_8xyn 0x5 rfl rfl, decode_8xyn 0x7 rfl rfl,
    ⟨_, rfl, setReg_sub_setFlag_borrows s x (s.reg x) (s.reg y)⟩,
    ⟨_, rfl, setReg_sub_setFlag_borrows s x (s.reg y) (s.reg x)⟩⟩

/-! ## The flag, then the shift -/

/-- Writing `VF` and then `V[x]` changes these two alone. -/
theorem setFlag_setReg_changesOnly (f b : Byte) :
    ChangesOnly (among [.reg x, .reg 15]) s ((s.setFlag f).setReg x b) :=
  (setFlag_changesOnly s f (by simp [among, flagReg])).trans (setReg_changesOnly _ x b (by simp [among]))

/-- After the flag and then the shift, `VF` is the flag, shifted when `x` is 15 (41_alu.md R114). -/
theorem reg_fifteen_of_setFlag_setReg (f : Byte) (shift : Byte → Byte) :
    ((s.setFlag f).setReg x (shift ((s.setFlag f).reg x))).reg 15 = if x = 15 then shift f else f := by
  by_cases hx : x = 15
  · rw [if_pos hx, hx, setReg_reg_self, setFlag_reg_fifteen]
  · rw [if_neg hx, State.setReg_reg, if_neg (Ne.symm hx), setFlag_reg_fifteen]

/-- After the flag and then the shift, `V[x]` is shifted, and is the shifted flag when `x` is 15 (41_alu.md R114). -/
theorem reg_of_setFlag_setReg (f : Byte) (shift : Byte → Byte) :
    ((s.setFlag f).setReg x (shift ((s.setFlag f).reg x))).reg x = if x = 15 then shift f else shift (s.reg x) := by
  rw [setReg_reg_self, setFlag_reg, apply_ite shift]

/-- The bit `8xy6` shifts out (41_alu.md R108). -/
theorem lowBit_toNat (a : Byte) : (lowBit a).toNat = a.toNat % 2 := by
  rw [lowBit, BitVec.toNat_and]
  exact Nat.and_one_is_mod _

/-- The bit `8xyE` shifts out, whose mask cuts nothing off (41_alu.md R110). -/
theorem highBit_toNat (a : Byte) : (highBit a).toNat = a.toNat / 128 := by
  have hand : (highBit a).toNat = a.toNat / 128 % 2 := by
    rw [highBit, BitVec.toNat_and, BitVec.toNat_ushiftRight, Nat.shiftRight_eq_div_pow]
    exact Nat.and_one_is_mod _
  omega

/-- A shift right by one halves (41_alu.md R108). -/
theorem ushiftRight_one_toNat (a : Byte) : (a >>> 1).toNat = a.toNat / 2 := by
  rw [BitVec.toNat_ushiftRight, Nat.shiftRight_eq_div_pow]

/-- A shift left by one doubles modulo 256 (41_alu.md R110). -/
theorem shiftLeft_one_toNat (a : Byte) : (a <<< 1).toNat = 2 * a.toNat % 256 := by
  rw [BitVec.toNat_shiftLeft, Nat.shiftLeft_eq]
  omega

/-- Settles O48: with `x` = 15 the shift acts on the flag, which `SHR` shifts out and `SHL` doubles. -/
theorem shiftsMoveOneBitIntoVf : Obligations.ShiftsMoveOneBitIntoVf := by
  refine fun x y s => ⟨decode_8xyn 0x6 rfl rfl, decode_8xyn 0xE rfl rfl,
    ⟨_, rfl, ?_, ?_, setFlag_setReg_changesOnly s x _ _⟩, ⟨_, rfl, ?_, ?_, setFlag_setReg_changesOnly s x _ _⟩⟩
  · rw [reg_fifteen_of_setFlag_setReg s x _ (· >>> 1), apply_ite BitVec.toNat, ushiftRight_one_toNat, lowBit_toNat]
    split <;> omega
  · rw [reg_of_setFlag_setReg s x _ (· >>> 1), apply_ite BitVec.toNat, ushiftRight_one_toNat, ushiftRight_one_toNat,
      lowBit_toNat]
    split <;> omega
  · rw [reg_fifteen_of_setFlag_setReg s x _ (· <<< 1), apply_ite BitVec.toNat, shiftLeft_one_toNat, highBit_toNat]
    split <;> omega
  · rw [reg_of_setFlag_setReg s x _ (· <<< 1), apply_ite BitVec.toNat, shiftLeft_one_toNat, shiftLeft_one_toNat,
      highBit_toNat]
    split <;> omega

end Sys2Proof.Machine
end

section
/-! SUPPORT. The index register and memory at `I` (42_index_memory.md R120 to R127): the words of group `F`, the writes of
`I`, the store that `Fx33` and `Fx55` share, and the load of `Fx65`. -/

namespace Sys2Proof

/-- The word `Fxkk` of an instruction decodes to it (30_encoding.md R64, R65). -/
theorem decode_Fxkk {i : Instr} {x : Reg} (kk : Byte) (hwf : i.wf = true) (henc : encode i = wordXKK 0xF x kk) :
    decode (BitVec.ofNat 16 (0xF000 + kk.toNat + 0x100 * x.val)) = .ok i := by
  refine decode_ofNat_of_encode hwf ?_
  have hmajor : (0xF : Nibble).toNat = 15 := rfl
  rw [henc, wordXKK_toNat, hmajor]
  omega

end Sys2Proof

namespace Sys2Proof.Machine

variable {s : State} {x : Reg}

/-! ## Stores at `I` -/

/-- The bytes `bs` stored from `I` up: the outcome that `Fx33` and `Fx55` share (42_index_memory.md R123, R124). -/
def storeAtIndex (bs : List Byte) (s : State) : Result :=
  finish ((writeBytes s.config s.mem (effAddr s 0) bs).map s.setMem)

theorem exec_ldB (x : Reg) (s : State) : exec (.ldB x) s = storeAtIndex (bcdDigits (s.reg x)) s := by
  simp only [exec, execLdB, storeAtIndex]
  cases writeBytes s.config s.mem (effAddr s 0) (bcdDigits (s.reg x)) <;> rfl

theorem exec_storeRegs (x : Reg) (s : State) : exec (.storeRegs x) s = storeAtIndex (regsUpTo s x) s := by
  simp only [exec, execStoreRegs, storeAtIndex]
  cases writeBytes s.config s.mem (effAddr s 0) (regsUpTo s x) <;> rfl

/-- A store at `I` that lies in memory completes: byte `k` lies at `I + k`, and nothing else changes
(20_memory.md R42, 42_index_memory.md R126). -/
theorem storeAtIndex_of_fits {bs : List Byte} (h : s.index.toNat + bs.length ≤ s.config.memSize) :
    ∃ t, storeAtIndex bs s = .next t ∧ (∀ k, k < bs.length → t.byteAt (effAddr s k) = .ok (bs.getD k 0)) ∧
      ChangesOnly (bytesFrom (effAddr s 0) bs.length) s t := by
  obtain ⟨m, e, hlookup, -⟩ := writeBytes_ok s.mem (effAddr s 0) bs h
  refine ⟨s.setMem m, by rw [storeAtIndex, e]; rfl, fun k hk => readByte_of_writeBytes e hk,
    setMem_changesOnly s m fun a ha => readByte_congr ?_⟩
  rw [hlookup, if_neg]
  rintro ⟨hlow, hhigh⟩
  obtain ⟨k, rfl⟩ := Nat.exists_eq_add_of_le hlow
  exact ha ⟨k, Nat.lt_of_add_lt_add_left hhigh, rfl⟩

/-- A store at `I` that leaves memory aborts at the first address outside (20_memory.md R45). -/
theorem storeAtIndex_of_leaves {bs : List Byte} (hpos : 0 < bs.length)
    (h : s.config.memSize < s.index.toNat + bs.length) :
    storeAtIndex bs s = .fault (.memOutOfRange (max s.index.toNat s.config.memSize)) := by
  rw [storeAtIndex, writeBytes_error s.mem (effAddr s 0) bs hpos h]
  rfl

theorem bcdDigits_length (b : Byte) : (bcdDigits b).length = 3 := rfl

/-- Settles O53: the three digits are stored at `I`. -/
theorem bcdStoresThreeDigits : Obligations.BcdStoresThreeDigits := by
  intro x s
  have hlen := bcdDigits_length (s.reg x)
  refine ⟨decode_Fxkk 0x33 rfl rfl, fun hin => ?_, fun hout => ?_⟩
  · obtain ⟨t, e, hread, hframe⟩ := storeAtIndex_of_fits (s := s) (bs := bcdDigits (s.reg x)) (by omega)
    exact ⟨t, (exec_ldB x s).trans e, hread 0 (by omega), hread 1 (by omega), hread 2 (by omega), hframe⟩
  · rw [exec_ldB]
    exact storeAtIndex_of_leaves (by omega) (by omega)

/-- Settles O54: the registers up to `V[x]` are stored at `I`. -/
theorem storeRegistersWritesMemoryAtI : Obligations.StoreRegistersWritesMemoryAtI := by
  intro x s
  have hlen := regsUpTo_length s x
  refine ⟨decode_Fxkk 0x55 rfl rfl, fun hin => ?_, fun hout => ?_⟩
  · obtain ⟨t, e, hread, hframe⟩ := storeAtIndex_of_fits (s := s) (bs := regsUpTo s x) (by omega)
    rw [hlen] at hread hframe
    refine ⟨t, (exec_storeRegs x s).trans e, fun k hk => ?_, hframe⟩
    rw [hread k.val (Nat.lt_succ_of_le hk), regsUpTo_getD s x k.val hk]
  · rw [exec_storeRegs]
    exact storeAtIndex_of_leaves (by omega) (by omega)

/-! ## Loads from `I` -/

/-- Byte `k` of a read access that completes is the byte at its address (20_memory.md R41, R56). -/
theorem readByte_of_readBytes {cf : Config} {m : Memory} {a n k : Nat} {bs : List Byte}
    (e : readBytes cf m a n = .ok bs) (hk : k < n) : readByte cf m (a + k) = .ok (bs.getD k 0) := by
  by_cases hin : a + n ≤ cf.memSize
  · rw [readBytes_ok m a n hin] at e
    cases e
    refine readByte_eq_ok.2 ⟨by omega, ?_⟩
    simp [hk]
  · rw [readBytes_error m a n (by omega) (by omega)] at e
    cases e

/-- `Fx65` after a read access that completes (42_index_memory.md R125). -/
theorem exec_loadRegs_of_read {bs : List Byte} (e : readBytes s.config s.mem (effAddr s 0) (x.val + 1) = .ok bs) :
    exec (.loadRegs x) s = .next (s.setRegs (loadRegsFrom s.v 0 bs)) := by
  simp only [exec, execLoadRegs, e]

/-- `Fx65` after a read access that aborts (42_index_memory.md R125). -/
theorem exec_loadRegs_of_error {f : Fault} (e : readBytes s.config s.mem (effAddr s 0) (x.val + 1) = .error f) :
    exec (.loadRegs x) s = .fault f := by
  simp only [exec, execLoadRegs, e, abort_eq]

/-- After a load of `bs` into the registers from `V[0]` up, a register is its byte of `bs`, or as before. -/
theorem setRegs_loadRegsFrom_reg (s : State) (bs : List Byte) (r : Reg) :
    (s.setRegs (loadRegsFrom s.v 0 bs)).reg r = if r.val < bs.length then bs.getD r.val 0 else s.reg r := by
  rw [State.setRegs_reg, loadRegsFrom_getElem _ _ _ _ r.isLt, Nat.sub_zero, Nat.zero_add]
  exact if_congr (and_iff_right (Nat.zero_le _)) rfl rfl

/-- Settles O55: the bytes read at `I` are loaded into the registers up to `V[x]`. -/
theorem loadRegistersReadsMemoryAtI : Obligations.LoadRegistersReadsMemoryAtI := by
  refine fun x s => ⟨decode_Fxkk 0x65 rfl rfl, fun hin => ?_, fun hout =>
    exec_loadRegs_of_error (readBytes_error s.mem (effAddr s 0) _ (Nat.succ_pos _) (Nat.lt_succ_of_le hout))⟩
  obtain ⟨bs, e⟩ : ∃ bs, readBytes s.config s.mem (effAddr s 0) (x.val + 1) = .ok bs := ⟨_, readBytes_ok _ _ _ hin⟩
  have hlen := readBytes_length e
  refine ⟨_, exec_loadRegs_of_read e, fun k hk => ?_, setRegs_changesOnly s _ fun r hr => ?_⟩
  · have hkx : k.val < x.val + 1 := Nat.lt_succ_of_le hk
    rw [setRegs_loadRegsFrom_reg, if_pos (hlen ▸ hkx)]
    exact readByte_of_readBytes e hkx
  · have hxr : x.val < r.val := Nat.lt_of_not_le fun h => hr ⟨r, h, rfl⟩
    exact (setRegs_loadRegsFrom_reg s bs r).trans (if_neg (by omega))

/-! ## Writes of `I` -/

/-- Writing `I` is a change of `I` alone. -/
theorem setIndex_changesOnly_index (s : State) (a : Word) : ChangesOnly (among [.index]) s (s.setIndex a) :=
  setIndex_changesOnly s a (List.mem_singleton.2 rfl)

/-- Settles O50: the address field is the new `I`, zero-extended. -/
theorem ldIndexLoadsTheAddress : Obligations.LdIndexLoadsTheAddress :=
  fun nnn s => ⟨decode_ofNat_of_encode rfl (wordNNN_toNat 0xA nnn), _, rfl, zextAddr_toNat nnn,
    setIndex_changesOnly_index s _⟩

/-- Settles O51: the sum of words is the sum of their numbers modulo 65536. -/
theorem addIndexWrapsWithoutFlag : Obligations.AddIndexWrapsWithoutFlag := by
  refine fun x s => ⟨decode_Fxkk 0x1E rfl rfl, _, rfl, ?_, setIndex_changesOnly_index s _⟩
  rw [State.setIndex_index, BitVec.toNat_add, zextByte_toNat]

/-- The address of a glyph fits in `I` (20_memory.md R49). -/
theorem glyphAddress_lt (c : Config) {d : Nat} (hd : d ≤ 15) : glyphAddress c d < 2 ^ 16 := by
  have hbase := c.fontBase.le
  have hoffset : c.glyphStride.val * d ≤ 255 * 15 := Nat.mul_le_mul c.glyphStride.le hd
  rw [glyphAddress]
  omega

/-- `Fx29` on a digit (42_index_memory.md R122). -/
theorem exec_ldF_of_digit (h : (s.reg x).toNat ≤ 15) :
    exec (.ldF x) s = .next (s.setIndex (BitVec.ofNat 16 (glyphAddress s.config (s.reg x).toNat))) := by
  rcases glyphOperand_cases (s.reg x) with ⟨-, e⟩ | ⟨hbig, -⟩
  · simp only [exec, execLdF, e]
  · omega

/-- `Fx29` on a value above 15 (60_exceptions.md R166). -/
theorem exec_ldF_of_above (h : 15 < (s.reg x).toNat) :
    exec (.ldF x) s = .fault (.glyphOutOfRange (s.reg x)) := by
  rcases glyphOperand_cases (s.reg x) with ⟨hdigit, -⟩ | ⟨-, e⟩
  · omega
  · simp only [exec, execLdF, e, abort_eq]

/-- Settles O52: the address of the glyph fits in `I`, so it is not reduced. -/
theorem ldGlyphPointsAtTheDigit : Obligations.LdGlyphPointsAtTheDigit := by
  refine fun x s => ⟨decode_Fxkk 0x29 rfl rfl, fun hdigit => ?_, exec_ldF_of_above⟩
  have haddr : (BitVec.ofNat 16 (glyphAddress s.config (s.reg x).toNat)).toNat =
      s.config.fontBase.val + s.config.glyphStride.val * (s.reg x).toNat :=
    Nat.mod_eq_of_lt (glyphAddress_lt s.config hdigit)
  refine ⟨_, exec_ldF_of_digit hdigit, setIndex_changesOnly_index s _, haddr, fun hbase hstride => ?_⟩
  rw [State.setIndex_index, haddr, hbase, hstride, Nat.zero_add]

end Sys2Proof.Machine
end

section
/-! SUPPORT. The display unit (43_display.md R130 to R139): pixels by coordinates modulo the display size, a sprite as
the set of cells it flips, no cell twice, and the instructions `00E0` and `Dxyn`. -/

namespace Sys2Proof.Machine

/-! ## Reading a pixel -/

/-- Settles O32: a row and a column are their coordinates modulo the display size, and a read is no write. -/
theorem pixelReadsWrapAndChangeNothing : Obligations.PixelReadsWrapAndChangeNothing := by
  intro s x y
  have hwidth : getPixel s.config s.pix (x + s.config.displayW.val) y = getPixel s.config s.pix x y := by
    simp only [getPixel, colOf_add]
  have hheight : getPixel s.config s.pix x (y + s.config.displayH.val) = getPixel s.config s.pix x y := by
    simp only [getPixel, rowOf_add]
  refine ⟨fun r q hr hq => ?_, fun hw hh => ?_, hwidth, hheight, fun hrun => whenRunning_of_running hrun _⟩
  · simp only [getPixel, rowOf_val, colOf_val, hr, hq]
  · rw [hw] at hwidth
    rw [hh] at hheight
    rw [hw, hh]
    exact ⟨(Nat.and_two_pow_sub_one_eq_mod x 6).symm, (Nat.and_two_pow_sub_one_eq_mod y 5).symm, hwidth, hheight⟩

/-! ## Cells of the display -/

/-- A cell of `PIX`: its row and its column. -/
abbrev DisplayCell := Fin 32 × Fin 64

/-- What a display holds at a cell. -/
def cellAt (d : Display) (p : DisplayCell) : Pixel := d[p.1.val][p.2.val]

/-- The cell of two coordinates (43_display.md R131). -/
def cellOf (cf : Config) (x y : Nat) : DisplayCell := (rowOf cf y, colOf cf x)

variable {cf : Config}

theorem getPixel_eq_cellAt (d : Display) (x y : Nat) : getPixel cf d x y = cellAt d (cellOf cf x y) := rfl

/-- The cell set reads as set, every other as before (43_display.md R132). -/
theorem cellAt_setPixel (d : Display) (x y : Nat) (v : Pixel) (p : DisplayCell) :
    cellAt (setPixel cf d x y v) p = if p = cellOf cf x y then v else cellAt d p :=
  (cell_set d (rowOf cf y) p.1 (colOf cf x) p.2 v).trans (if_congr (by rw [cellOf, Prod.ext_iff, and_comm]) rfl rfl)

/-- Displays with the same cells are equal. -/
theorem display_ext {d e : Display} (h : ∀ p, cellAt d p = cellAt e p) : d = e :=
  Vector.ext fun i hi => Vector.ext fun j hj => h (⟨i, hi⟩, ⟨j, hj⟩)

theorem Pixel.flip_eq_on_iff (p : Pixel) : p.flip = .on ↔ p = .off := by
  cases p <;> decide

/-- Coordinates less than the modulus apart stay apart. -/
theorem add_mod_ne {a k m : Nat} (hpos : 0 < k) (hlt : k < m) : a % m ≠ (a + k) % m := by
  intro h
  have hzero : (a + k - a) % m = 0 := Nat.sub_mod_eq_zero_of_mod_eq h.symm
  rw [Nat.add_sub_cancel_left, Nat.mod_eq_of_lt hlt] at hzero
  omega

/-! ## A drawing as the set of cells it flips -/

/-- From display and collision `a` to display and collision `b` exactly the cells of `S` are flipped, and a collision is
reported if there was one or a cell of `S` was `On` (43_display.md R134). -/
structure FlipsCells (S : Set DisplayCell) (a b : Display × Bool) : Prop where
  flipped : ∀ p ∈ S, cellAt b.1 p = (cellAt a.1 p).flip
  kept : ∀ p ∉ S, cellAt b.1 p = cellAt a.1 p
  collided : b.2 = true ↔ a.2 = true ∨ ∃ p ∈ S, cellAt a.1 p = .on

theorem FlipsCells.refl (a : Display × Bool) : FlipsCells ∅ a a where
  flipped _ hp := hp.elim
  kept _ _ := rfl
  collided := by simp

/-- Drawings of disjoint sets of cells, one after the other, are one drawing of their union. -/
theorem FlipsCells.trans {S T : Set DisplayCell} {a b c : Display × Bool} (hab : FlipsCells S a b)
    (hbc : FlipsCells T b c) (hdisj : Disjoint S T) : FlipsCells (S ∪ T) a c where
  flipped p hp := by
    rcases hp with hS | hT
    · rw [hbc.kept p (hdisj.notMem_of_mem_left hS), hab.flipped p hS]
    · rw [hbc.flipped p hT, hab.kept p (hdisj.notMem_of_mem_right hT)]
  kept p hp := by
    rw [Set.mem_union, not_or] at hp
    rw [hbc.kept p hp.2, hab.kept p hp.1]
  collided := by
    have hT : (∃ p ∈ T, cellAt b.1 p = .on) ↔ ∃ p ∈ T, cellAt a.1 p = .on :=
      exists_congr fun p => and_congr_right fun hp => by rw [hab.kept p (hdisj.notMem_of_mem_right hp)]
    rw [hbc.collided, hab.collided, hT, or_assoc]
    simp only [Set.mem_union, or_and_right, exists_or]

/-! ## The rasterizer -/

/-- The cells that columns `c` to `c + n - 1` of a sprite row flip (43_display.md R134). -/
def columnCells (cf : Config) (b : Byte) (x0 y c n : Nat) : Set DisplayCell :=
  {p | ∃ k < n, b.getLsbD (7 - (c + k)) = true ∧ cellOf cf (x0 + (c + k)) y = p}

/-- The cells that the rows of a sprite flip (43_display.md R134). -/
def spriteCells (cf : Config) (x0 y0 : Nat) (rows : List Byte) : Set DisplayCell :=
  {p | ∃ r < rows.length, p ∈ columnCells cf (rows.getD r 0) x0 (y0 + r) 0 (spriteColumns cf.spriteCols)}

theorem columnCells_succ (b : Byte) (x0 y c n : Nat) :
    columnCells cf b x0 y c (n + 1) =
      {p | b.getLsbD (7 - c) = true ∧ cellOf cf (x0 + c) y = p} ∪ columnCells cf b x0 y (c + 1) n := by
  ext p
  simp only [columnCells, Set.mem_ofPred_eq, Set.mem_union, Nat.exists_lt_succ_left, Nat.add_zero,
    Nat.add_right_comm c 1, Nat.add_assoc c]

theorem spriteCells_cons (x0 y : Nat) (b : Byte) (bs : List Byte) :
    spriteCells cf x0 y (b :: bs) =
      columnCells cf b x0 y 0 (spriteColumns cf.spriteCols) ∪ spriteCells cf x0 (y + 1) bs := by
  ext p
  simp only [spriteCells, Set.mem_ofPred_eq, Set.mem_union, List.length_cons, Nat.exists_lt_succ_left, Nat.add_zero,
    List.getD_cons_zero, List.getD_cons_succ, Nat.add_right_comm y 1, Nat.add_assoc y]

/-- A sprite bit flips its cell if it is 1 (43_display.md R134). -/
theorem drawBit_flipsCells (bit : Bool) (x y : Nat) (acc : Display × Bool) :
    FlipsCells {p | bit = true ∧ cellOf cf x y = p} acc (drawBit cf bit x y acc) := by
  cases bit with
  | false => simpa [drawBit] using FlipsCells.refl acc
  | true =>
    exact {
      flipped := fun p ⟨_, hp⟩ => hp ▸ (cellAt_setPixel ..).trans (if_pos rfl)
      kept := fun p hp => (cellAt_setPixel ..).trans (if_neg fun h => hp ⟨rfl, h.symm⟩)
      collided := by simp [drawBit, getPixel_eq_cellAt] }

/-- The columns of a sprite row, no more than the display is wide, flip each its own cell. -/
theorem drawColumns_flipsCells (b : Byte) (x0 y : Nat) {c n : Nat} (hn : n ≤ cf.displayW.val) (acc : Display × Bool) :
    FlipsCells (columnCells cf b x0 y c n) acc (drawColumns cf b x0 y c n acc) := by
  induction n generalizing c acc with
  | zero => simpa [columnCells, drawColumns] using FlipsCells.refl acc
  | succ n ih =>
    rw [columnCells_succ]
    refine (drawBit_flipsCells _ _ _ acc).trans (ih (by omega) _) (Set.disjoint_left.2 ?_)
    rintro p ⟨-, hhead⟩ ⟨k, hk, -, htail⟩
    have hcol : (x0 + c) % cf.displayW.val = (x0 + (c + 1 + k)) % cf.displayW.val :=
      congrArg (fun p : DisplayCell => p.2.val) (hhead.trans htail.symm)
    rw [show x0 + (c + 1 + k) = x0 + c + (k + 1) by omega] at hcol
    exact add_mod_ne (by omega) (by omega) hcol

theorem spriteColumns_le_width (cf : Config) : spriteColumns cf.spriteCols ≤ cf.displayW.val := by
  have hcols : spriteColumns cf.spriteCols ≤ 8 := by cases cf.spriteCols <;> decide
  exact hcols.trans cf.displayW.ge

/-- The rows of a sprite, no more than the display is high, flip each its own cells. -/
theorem drawRows_flipsCells (x0 : Nat) {y : Nat} {rows : List Byte} (hrows : rows.length ≤ cf.displayH.val)
    (acc : Display × Bool) : FlipsCells (spriteCells cf x0 y rows) acc (drawRows cf x0 y rows acc) := by
  induction rows generalizing y acc with
  | nil => simpa [spriteCells, drawRows] using FlipsCells.refl acc
  | cons b bs ih =>
    rw [List.length_cons] at hrows
    rw [spriteCells_cons]
    refine (drawColumns_flipsCells b x0 y (spriteColumns_le_width cf) acc).trans (ih (by omega) _)
      (Set.disjoint_left.2 ?_)
    rintro p ⟨_, -, -, hhead⟩ ⟨r, hr, _, -, -, htail⟩
    have hrow : y % cf.displayH.val = (y + 1 + r) % cf.displayH.val :=
      congrArg (fun p : DisplayCell => p.1.val) (hhead.trans htail.symm)
    rw [show y + 1 + r = y + (r + 1) by omega] at hrow
    exact add_mod_ne (by omega) (by omega) hrow

/-- A sprite of at most 15 rows flips each of its cells once, on a display of at least 16 rows (43_display.md R134). -/
theorem drawSprite_flipsCells (x0 y0 : Nat) {rows : List Byte} (hrows : rows.length ≤ 15) (d : Display) :
    FlipsCells (spriteCells cf x0 y0 rows) (d, false) (drawSprite cf x0 y0 rows d) :=
  drawRows_flipsCells x0 ((Nat.le_succ_of_le hrows).trans cf.displayH.ge) (d, false)

/-! ## The covered pixels -/

theorem spriteCovers_iff {x0 y0 : Nat} {rows : List Byte} {px py : Nat} :
    SpriteCovers cf x0 y0 rows px py ↔ cellOf cf px py ∈ spriteCells cf x0 y0 rows := by
  simp only [SpriteCovers, spriteCells, columnCells, Set.mem_ofPred_eq, cellOf, Prod.mk.injEq, Nat.zero_add]
  constructor
  · rintro ⟨r, c, hr, hc, hbit, hcol, hrow⟩
    exact ⟨r, hr, c, hc, hbit, hrow, hcol⟩
  · rintro ⟨r, hr, c, hc, hbit, hrow, hcol⟩
    exact ⟨r, c, hr, hc, hbit, hcol, hrow⟩

/-- Every cell a sprite flips is the cell of a covered pixel. -/
theorem exists_mem_spriteCells {x0 y0 : Nat} {rows : List Byte} {P : DisplayCell → Prop} :
    (∃ p ∈ spriteCells cf x0 y0 rows, P p) ↔ ∃ px py, SpriteCovers cf x0 y0 rows px py ∧ P (cellOf cf px py) := by
  constructor
  · rintro ⟨_, ⟨r, hr, c, hc, hbit, rfl⟩, hP⟩
    exact ⟨_, _, spriteCovers_iff.2 ⟨r, hr, c, hc, hbit, rfl⟩, hP⟩
  · rintro ⟨px, py, hcovers, hP⟩
    exact ⟨_, spriteCovers_iff.1 hcovers, hP⟩

/-- Settles O33: the cells flipped are those of the covered pixels. -/
theorem drawingASpriteIsXorWithWrap : Obligations.DrawingASpriteIsXorWithWrap := by
  intro c x0 y0 rows d hrows
  have hdraw := drawSprite_flipsCells (cf := c) x0 y0 hrows d
  refine ⟨fun px py => ⟨fun h => hdraw.flipped _ (spriteCovers_iff.1 h),
    fun h => hdraw.kept _ fun hmem => h (spriteCovers_iff.2 hmem)⟩, ?_⟩
  rw [hdraw.collided, exists_mem_spriteCells]
  simp [SpriteHits, getPixel_eq_cellAt]

/-- Settles O34: a cell flipped twice, and one flipped never, is as before; the second draw finds the covered cells
flipped. -/
theorem drawingTwiceRestoresTheDisplay : Obligations.DrawingTwiceRestoresTheDisplay := by
  intro c x0 y0 rows d hrows
  have hfirst := drawSprite_flipsCells (cf := c) x0 y0 hrows d
  have hsecond := drawSprite_flipsCells (cf := c) x0 y0 hrows (drawSprite c x0 y0 rows d).1
  constructor
  · refine display_ext fun p => ?_
    by_cases hp : p ∈ spriteCells c x0 y0 rows
    · rw [hsecond.flipped p hp, hfirst.flipped p hp, Pixel.flip_flip]
    · rw [hsecond.kept p hp, hfirst.kept p hp]
  · have hfound : (∃ p ∈ spriteCells c x0 y0 rows, cellAt (drawSprite c x0 y0 rows d).1 p = .on) ↔
        ∃ p ∈ spriteCells c x0 y0 rows, cellAt d p = .off :=
      exists_congr fun p => and_congr_right fun hp => by rw [hfirst.flipped p hp, Pixel.flip_eq_on_iff]
    rw [hsecond.collided, hfound, exists_mem_spriteCells]
    simp [getPixel_eq_cellAt]

/-! ## The display instructions -/

/-- Settles O56: every cell of the new display is off. -/
theorem clsTurnsEveryPixelOff : Obligations.ClsTurnsEveryPixelOff :=
  ⟨decode_encode (i := .cls) rfl, fun s => ⟨_, rfl, getPixel_blank s.config,
    setPix_changesOnly s blankDisplay fun x y h => absurd ⟨x, y, rfl⟩ h⟩⟩

section Draw
variable {s : State} {x y : Reg} {n : Fin 16}

/-- `Dxyn` after a read access that completes (43_display.md R137). -/
theorem exec_drw_of_read {rows : List Byte} (e : readBytes s.config s.mem (effAddr s 0) n.val = .ok rows) :
    exec (.drw x y n) s =
      .next ((s.setPix (drawSprite s.config (s.reg x).toNat (s.reg y).toNat rows s.pix).1).setFlag
        (flagByte (drawSprite s.config (s.reg x).toNat (s.reg y).toNat rows s.pix).2)) := by
  simp only [exec, execDrw, e]

/-- `Dxyn` after a read access that aborts (43_display.md R137). -/
theorem exec_drw_of_error {f : Fault} (e : readBytes s.config s.mem (effAddr s 0) n.val = .error f) :
    exec (.drw x y n) s = .fault f := by
  simp only [exec, execDrw, e, abort_eq]

/-- A read access of no byte, or of bytes that lie in memory, completes (20_memory.md R45). -/
theorem readBytes_completes {m : Memory} {a k : Nat} (h : k = 0 ∨ a + k ≤ cf.memSize) :
    ∃ bs, readBytes cf m a k = .ok bs := by
  rcases h with rfl | h
  · exact ⟨[], rfl⟩
  · exact ⟨_, readBytes_ok m a k h⟩

/-- A new display and a new `VF` are a change of pixels and `VF` alone. -/
theorem setPix_setFlag_changesOnly (s : State) (d : Display) (b : Byte) :
    ChangesOnly (fun c => c = .reg 15 ∨ ∃ px py, c = .pixel px py) s ((s.setPix d).setFlag b) :=
  (setPix_changesOnly s d fun px py h => absurd (.inr ⟨px, py, rfl⟩) h).trans (setFlag_changesOnly _ b (.inl rfl))

/-- The word `Dxyn` decodes to its instruction (30_encoding.md R64, R65). -/
theorem decode_Dxyn (x y : Reg) (n : Fin 16) :
    decode (BitVec.ofNat 16 (0xD000 + 0x100 * x.val + 0x10 * y.val + n.val)) = .ok (.drw x y n) :=
  decode_ofNat_of_encode rfl (wordXYN_toNat 0xD x y (BitVec.ofFin n))

end Draw

/-- Settles O57: the bytes read at `I` are the rows drawn, and `VF` is the collision. -/
theorem drwDrawsMemoryAtIAndSetsVf : Obligations.DrwDrawsMemoryAtIAndSetsVf := by
  refine fun x y n s => ⟨decode_Dxyn x y n, fun hin => ?_, fun hpos hout =>
    exec_drw_of_error (readBytes_error s.mem (effAddr s 0) _ hpos hout)⟩
  obtain ⟨rows, e⟩ := readBytes_completes (m := s.mem) (a := effAddr s 0) hin
  have hlen := readBytes_length e
  obtain ⟨hdrawn, hcollides⟩ :=
    drawingASpriteIsXorWithWrap s.config (s.reg x).toNat (s.reg y).toNat rows s.pix (by omega)
  refine ⟨_, rows, exec_drw_of_read e, hlen, fun r hr => readByte_of_readBytes e hr, hdrawn, fun hhits => ?_,
    fun hmisses => ?_, setPix_setFlag_changesOnly s _ _⟩
  · rw [setFlag_reg_fifteen, hcollides.2 hhits]
    rfl
  · rw [setFlag_reg_fifteen, Bool.eq_false_iff.2 (mt hcollides.1 hmisses)]
    rfl

end Sys2Proof.Machine
end

section
/-! SUPPORT. The keyboard unit (44_keyboard.md R145 to R150): the host's key write, the keys along a frame, the scan for
the first pressed key, and the instructions `Ex9E`, `ExA1` and `Fx0A`. -/

namespace Sys2Proof

/-- The word of an instruction with a register and a byte field decodes to it (30_encoding.md R64, R65). -/
theorem decode_of_wordXKK {i : Instr} {x : Reg} (a : Nibble) (kk : Byte) (hwf : i.wf = true)
    (henc : encode i = wordXKK a x kk) :
    decode (BitVec.ofNat 16 (0x1000 * a.toNat + kk.toNat + 0x100 * x.val)) = .ok i := by
  refine decode_ofNat_of_encode hwf ?_
  rw [henc, wordXKK_toNat]
  omega

end Sys2Proof

namespace Sys2Proof.Machine

variable {s : State} {x : Reg} {k : Key}

/-! ## The writers of a key -/

/-- Setting a key is a change of that key alone (44_keyboard.md R146). -/
theorem setKey_changesOnly_key (s : State) (k : Key) (p : KeyState) :
    ChangesOnly (among [.key k]) s (s.setKey k p) := by
  intro c hc
  cases c with
  | key q =>
    have hne : q ≠ k := fun e => hc (List.mem_singleton.2 (congrArg Component.key e))
    exact (State.setKey_keyState s k q p).trans (if_neg hne)
  | _ => rfl

/-- A step that completes leaves every key as it was. -/
theorem step_keyState {t : State} (e : step s = .next t) (k : Key) : t.keyState k = s.keyState k := by
  obtain ⟨w, i, -, -, -, hexec⟩ := step_next e
  exact exec_changesOnly hexec (.key k) id

/-- A frame that completes is a run that completes, then the timer update (60_exceptions.md R183). -/
theorem frame_next {n : Nat} {t : State} (e : frame n s = .next t) :
    ∃ u, runSteps n s = .next u ∧ t = timerUpdate u := by
  unfold frame at e
  split at e
  next => cases e
  next =>
    split at e
    next u hu =>
      cases e
      exact ⟨u, hu, rfl⟩
    all_goals cases e

/-- A frame that completes leaves every key as it was: no step writes one, nor does the timer update. -/
theorem frame_keyState {n : Nat} {t : State} (e : frame n s = .next t) (k : Key) : t.keyState k = s.keyState k := by
  obtain ⟨u, hrun, rfl⟩ := frame_next e
  have hkeep : u.keyState k = s.keyState k :=
    runSteps_induction (P := fun v => v.keyState k = s.keyState k) (fun _ _ hv ih => (step_keyState hv k).trans ih)
      hrun rfl
  exact hkeep

/-- Settles O30: a running machine accepts the one write of the key, and no step of a frame writes one. -/
theorem keySetChangesOneKeyAndFramesNone : Obligations.KeySetChangesOneKeyAndFramesNone :=
  ⟨fun s k p hrun => ⟨_, whenRunning_of_running hrun _, (State.setKey_keyState s k k p).trans (if_pos rfl),
    setKey_changesOnly_key s k p⟩, fun _ _ _ k e => frame_keyState e k⟩

/-! ## The first pressed key -/

/-- A key that is not pressed is released (44_keyboard.md R145). -/
theorem KeyState.ne_pressed_iff {p : KeyState} : p ≠ .pressed ↔ p = .released := by
  cases p <;> decide

/-- The ascending scan is the library's search of the first of sixteen keys. -/
theorem firstPressed_eq_find? (s : State) : firstPressed s = Fin.find? fun k => s.keyState k = .pressed :=
  Fin.find?_eq_find?_finRange.symm

/-- The scan answers the least pressed key (44_keyboard.md R147). -/
theorem firstPressed_eq_some_iff :
    firstPressed s = some k ↔ s.keyState k = .pressed ∧ ∀ j, j < k → s.keyState j = .released := by
  simp only [firstPressed_eq_find?, Fin.find?_eq_some_iff, decide_eq_true_eq, decide_eq_false_iff_not,
    KeyState.ne_pressed_iff]

/-- The scan answers none when every key is released (44_keyboard.md R147). -/
theorem firstPressed_eq_none_iff : firstPressed s = none ↔ ∀ k, s.keyState k = .released := by
  simp only [firstPressed_eq_find?, Fin.find?_eq_none_iff, decide_eq_false_iff_not, KeyState.ne_pressed_iff]

/-- Settles O31: the first key the ascending scan finds pressed has only released keys below it. -/
theorem firstPressedKeyIsTheLeast : Obligations.FirstPressedKeyIsTheLeast :=
  fun _ => ⟨fun _ => firstPressed_eq_some_iff, firstPressed_eq_none_iff⟩

/-! ## The skips on a key level -/

/-- A register that holds the number of a key gives that key (44_keyboard.md R148). -/
theorem keyOperand_of_key {b : Byte} (h : b.toNat = k.val) : keyOperand b = .ok k := by
  rcases keyOperand_cases b with ⟨hlt, e⟩ | ⟨hbig, -⟩
  · rw [e]
    exact congrArg Except.ok (Fin.ext h)
  · omega

/-- A register above 15 gives no key (60_exceptions.md R165). -/
theorem keyOperand_of_above {b : Byte} (h : 15 < b.toNat) : keyOperand b = .error (.keyOutOfRange b) := by
  rcases keyOperand_cases b with ⟨hlt, -⟩ | ⟨-, e⟩
  · omega
  · exact e

/-- `Ex9E` on the number of a key (44_keyboard.md R148). -/
theorem exec_skp_of_key (h : (s.reg x).toNat = k.val) :
    exec (.skp x) s = .next (skipIf (s.keyState k = .pressed) s) := by
  simp only [exec, execSkp, keyOperand_of_key h]

/-- `ExA1` on the number of a key (44_keyboard.md R149). -/
theorem exec_sknp_of_key (h : (s.reg x).toNat = k.val) :
    exec (.sknp x) s = .next (skipIf (s.keyState k = .released) s) := by
  simp only [exec, execSknp, keyOperand_of_key h]

/-- `Ex9E` on a value above 15 (60_exceptions.md R165). -/
theorem exec_skp_of_above (h : 15 < (s.reg x).toNat) : exec (.skp x) s = .fault (.keyOutOfRange (s.reg x)) := by
  simp only [exec, execSkp, keyOperand_of_above h, abort_eq]

/-- `ExA1` on a value above 15 (60_exceptions.md R165). -/
theorem exec_sknp_of_above (h : 15 < (s.reg x).toNat) : exec (.sknp x) s = .fault (.keyOutOfRange (s.reg x)) := by
  simp only [exec, execSknp, keyOperand_of_above h, abort_eq]

/-- The `pc` after a skip on a pressed key (44_keyboard.md R148). -/
theorem skipIf_pressed_pc (s : State) (p : KeyState) :
    (skipIf (p = .pressed) s).pc = if p = .pressed then s.pc + 2 else s.pc := by
  simp only [skipIf_eq, State.setPc_pc, decide_eq_true_eq]

/-- The `pc` after a skip on a released key (44_keyboard.md R149). -/
theorem skipIf_released_pc (s : State) (p : KeyState) :
    (skipIf (p = .released) s).pc = if p = .pressed then s.pc else s.pc + 2 := by
  simp only [skipIf_eq, State.setPc_pc, decide_eq_true_eq, ← KeyState.ne_pressed_iff, ite_not]

/-- Settles O58: each meaning is a skip on the level of the key `V[x]`, and above 15 there is no key. -/
theorem keySkipsFollowTheKeyLevel : Obligations.KeySkipsFollowTheKeyLevel :=
  fun _ s => ⟨decode_of_wordXKK 0xE 0x9E rfl rfl, decode_of_wordXKK 0xE 0xA1 rfl rfl,
    fun _ hk => ⟨⟨_, exec_skp_of_key hk, skipIf_pressed_pc s _, skipIf_changesOnly_pc _ s⟩,
      ⟨_, exec_sknp_of_key hk, skipIf_released_pc s _, skipIf_changesOnly_pc _ s⟩⟩,
    fun habove => ⟨exec_skp_of_above habove, exec_sknp_of_above habove⟩⟩

/-! ## The wait for a key -/

/-- `Fx0A` with a key down (44_keyboard.md R150). -/
theorem exec_ldVxK_of_some (h : firstPressed s = some k) :
    exec (.ldVxK x) s = .next (s.setReg x (BitVec.ofNat 8 k.val)) := by
  simp only [exec, execLdVxK, h]

/-- `Fx0A` with no key down (44_keyboard.md R150). -/
theorem exec_ldVxK_of_none (h : firstPressed s = none) : exec (.ldVxK x) s = .next (s.setPc (s.pc - 2)) := by
  simp only [exec, execLdVxK, h, rewind_eq]

/-- Settles O59: the scan answers the least pressed key, whose number fits in a byte, or none. -/
theorem keyWaitTakesTheLeastKeyOrRewinds : Obligations.KeyWaitTakesTheLeastKeyOrRewinds := by
  refine fun x s => ⟨decode_Fxkk 0x0A rfl rfl, fun k hk hlesser => ?_, fun hnone =>
    ⟨_, exec_ldVxK_of_none (firstPressed_eq_none_iff.2 hnone), rfl, setPc_changesOnly_pc s _⟩⟩
  have hbyte : k.val < 2 ^ 8 := by omega
  refine ⟨_, exec_ldVxK_of_some (firstPressed_eq_some_iff.2 ⟨hk, hlesser⟩), ?_, setReg_changesOnly_reg s x _⟩
  rw [setReg_reg_self, BitVec.toNat_ofNat, Nat.mod_eq_of_lt hbyte]

end Sys2Proof.Machine
end

section
/-! SUPPORT. The timer instructions (45_timer.md R155 to R157): each is one write, of a register or of a timer. -/

namespace Sys2Proof.Machine

/-- Writing `DT` is a change of `DT` alone: `ST` follows only at the timer update (45_timer.md R156). -/
theorem setDt_changesOnly_dt (s : State) (b : Byte) : ChangesOnly (among [.dt]) s (s.setDt b) :=
  setDt_changesOnly s b (List.mem_singleton.2 rfl)

/-- Writing `ST` is a change of `ST` alone (45_timer.md R157). -/
theorem setSt_changesOnly_st (s : State) (b : Byte) : ChangesOnly (among [.st]) s (s.setSt b) :=
  setSt_changesOnly s b (List.mem_singleton.2 rfl)

/-- Settles O60: each meaning is the one write of the copied byte. -/
theorem timerRegistersAreCopied : Obligations.TimerRegistersAreCopied := by
  refine fun x s => ⟨decode_Fxkk 0x07 rfl rfl, decode_Fxkk 0x15 rfl rfl, decode_Fxkk 0x18 rfl rfl, ?_, ?_, ?_⟩
  · exact ⟨s.setReg x s.dt, rfl, setReg_reg_self s x s.dt, setReg_changesOnly_reg s x s.dt⟩
  · exact ⟨s.setDt (s.reg x), rfl, State.setDt_dt s (s.reg x), setDt_changesOnly_dt s (s.reg x)⟩
  · exact ⟨s.setSt (s.reg x), rfl, State.setSt_st s (s.reg x), setSt_changesOnly_st s (s.reg x)⟩

end Sys2Proof.Machine
end

section
/-! SUPPORT. The aborts of a step (60_exceptions.md R160 to R171): the fetch and the decoder, then each instruction that
has an abort of its own, with the case it is raised in and what it carries. -/

namespace Sys2Proof.Machine

/-! ## Fetch, then decode -/

/-- A fetch outside memory ends the step (60_exceptions.md R171). -/
theorem step_of_fetch_error {s : State} {f : Fault} (hrun : s.status = .running) (e : fetch s = .error f) :
    step s = .fault f := by
  simp only [step, hrun, e, abort_eq]

/-- A word that dispatch rejects ends the step, with the word and its address (60_exceptions.md R161). -/
theorem step_of_decode_error {s : State} {w : Word} {d : DecodeError} (hrun : s.status = .running)
    (hf : fetch s = .ok w) (hd : decode w = .error d) : step s = .fault (.illegalOpcode w s.pc) := by
  simp only [step, hrun, hf, hd, abort_eq]

/-- A fetch that aborts has a byte outside memory, and carries the first bad address (20_memory.md R45). -/
theorem fetch_fault {s : State} {f : Fault} (e : fetch s = .error f) :
    s.config.memSize < s.pc.toNat + 2 ∧ f = .memOutOfRange (max s.pc.toNat s.config.memSize) := by
  rcases fetch_cases s with ⟨-, w, h⟩ | ⟨hout, h⟩
  · rw [h] at e
    cases e
  · rw [h] at e
    cases e
    exact ⟨hout, rfl⟩

/-- Settles O4: the two branches of a running step before the instruction's own meaning. -/
theorem stepAbortsInFetchThenDecodeOrder : Obligations.StepAbortsInFetchThenDecodeOrder := by
  refine fun s hrun => ⟨fun hout => ?_, fun w hf hillegal => ?_⟩
  · rcases fetch_cases s with ⟨hin, -⟩ | ⟨-, e⟩
    · omega
    · exact step_of_fetch_error hrun e
  · rcases decode_total w with hd | ⟨i, hd⟩
    · exact step_of_decode_error hrun hf hd
    · exact absurd hd (hillegal i)

/-! ## The aborts of the instructions -/

/-- The aborts that instructions raise themselves, each with its case; `s` is the state after the fetch advance
(60_exceptions.md R162 to R166). -/
inductive InstrAborts (s : State) : Instr → Fault → Prop
  | ret (h : s.sp.val = 0) : InstrAborts s .ret .stackUnderflow
  | call (nnn : Addr) (h : s.config.stackDepth.val ≤ s.sp.val) : InstrAborts s (.call nnn) (.stackOverflow s.pc)
  | drw (x y : Reg) (n : Fin 16) (hpos : 0 < n.val) (h : s.config.memSize < s.index.toNat + n.val) :
      InstrAborts s (.drw x y n) (.memOutOfRange (max s.index.toNat s.config.memSize))
  | ldB (x : Reg) (h : s.config.memSize ≤ s.index.toNat + 2) :
      InstrAborts s (.ldB x) (.memOutOfRange (max s.index.toNat s.config.memSize))
  | storeRegs (x : Reg) (h : s.config.memSize ≤ s.index.toNat + x.val) :
      InstrAborts s (.storeRegs x) (.memOutOfRange (max s.index.toNat s.config.memSize))
  | loadRegs (x : Reg) (h : s.config.memSize ≤ s.index.toNat + x.val) :
      InstrAborts s (.loadRegs x) (.memOutOfRange (max s.index.toNat s.config.memSize))
  | skp (x : Reg) (h : 15 < (s.reg x).toNat) : InstrAborts s (.skp x) (.keyOutOfRange (s.reg x))
  | sknp (x : Reg) (h : 15 < (s.reg x).toNat) : InstrAborts s (.sknp x) (.keyOutOfRange (s.reg x))
  | ldF (x : Reg) (h : 15 < (s.reg x).toNat) : InstrAborts s (.ldF x) (.glyphOutOfRange (s.reg x))

/-- A read access that aborts has a byte outside memory, and carries the first bad address (20_memory.md R45). -/
theorem readBytes_fault {cf : Config} {m : Memory} {a n : Nat} {f : Fault} (e : readBytes cf m a n = .error f) :
    0 < n ∧ cf.memSize < a + n ∧ f = .memOutOfRange (max a cf.memSize) := by
  by_cases hin : n = 0 ∨ a + n ≤ cf.memSize
  · obtain ⟨bs, h⟩ := readBytes_completes (m := m) hin
    rw [h] at e
    cases e
  · have hpos : 0 < n := by omega
    have hout : cf.memSize < a + n := by omega
    rw [readBytes_error m a n hpos hout] at e
    cases e
    exact ⟨hpos, hout, rfl⟩

section Meanings
variable {s : State} {f : Fault} {x y : Reg}

/-- A store at `I` that aborts leaves memory, and carries the first bad address (20_memory.md R45). -/
theorem storeAtIndex_fault {bs : List Byte} (hpos : 0 < bs.length) (e : storeAtIndex bs s = .fault f) :
    s.config.memSize < s.index.toNat + bs.length ∧ f = .memOutOfRange (max s.index.toNat s.config.memSize) := by
  rcases Nat.lt_or_ge s.config.memSize (s.index.toNat + bs.length) with hout | hin
  · rw [storeAtIndex_of_leaves hpos hout] at e
    cases e
    exact ⟨hout, rfl⟩
  · obtain ⟨t, h, -⟩ := storeAtIndex_of_fits hin
    rw [h] at e
    cases e

theorem exec_ret_fault (e : exec .ret s = .fault f) : InstrAborts s .ret f := by
  rcases pull_cases s with ⟨_, h⟩ | ⟨hempty, h⟩
  · rw [exec_ret_of_pull h] at e
    cases e
  · rw [exec_ret_of_error h] at e
    cases e
    exact .ret hempty

theorem exec_call_fault {nnn : Addr} (e : exec (.call nnn) s = .fault f) : InstrAborts s (.call nnn) f := by
  rcases push_cases s.pc s with ⟨-, _, h⟩ | ⟨hfull, h⟩
  · rw [exec_call_of_push h] at e
    cases e
  · rw [exec_call_of_error h] at e
    cases e
    exact .call nnn hfull

theorem exec_drw_fault {n : Fin 16} (e : exec (.drw x y n) s = .fault f) : InstrAborts s (.drw x y n) f := by
  cases h : readBytes s.config s.mem (effAddr s 0) n.val with
  | ok rows =>
    rw [exec_drw_of_read h] at e
    cases e
  | error g =>
    rw [exec_drw_of_error h] at e
    cases e
    obtain ⟨hpos, hout, rfl⟩ := readBytes_fault h
    exact .drw x y n hpos hout

theorem exec_loadRegs_fault (e : exec (.loadRegs x) s = .fault f) : InstrAborts s (.loadRegs x) f := by
  cases h : readBytes s.config s.mem (effAddr s 0) (x.val + 1) with
  | ok bs =>
    rw [exec_loadRegs_of_read h] at e
    cases e
  | error g =>
    rw [exec_loadRegs_of_error h] at e
    cases e
    obtain ⟨-, hout, rfl⟩ := readBytes_fault h
    exact .loadRegs x (Nat.le_of_lt_succ hout)

theorem exec_ldB_fault (e : exec (.ldB x) s = .fault f) : InstrAborts s (.ldB x) f := by
  have hlen := bcdDigits_length (s.reg x)
  rw [exec_ldB] at e
  obtain ⟨hout, rfl⟩ := storeAtIndex_fault (by omega) e
  exact .ldB x (by omega)

theorem exec_storeRegs_fault (e : exec (.storeRegs x) s = .fault f) : InstrAborts s (.storeRegs x) f := by
  have hlen := regsUpTo_length s x
  rw [exec_storeRegs] at e
  obtain ⟨hout, rfl⟩ := storeAtIndex_fault (by omega) e
  exact .storeRegs x (by omega)

theorem exec_skp_fault (e : exec (.skp x) s = .fault f) : InstrAborts s (.skp x) f := by
  rcases Nat.lt_or_ge 15 (s.reg x).toNat with habove | hkey
  · rw [exec_skp_of_above habove] at e
    cases e
    exact .skp x habove
  · rw [exec_skp_of_key (k := ⟨_, Nat.lt_succ_of_le hkey⟩) rfl] at e
    cases e

theorem exec_sknp_fault (e : exec (.sknp x) s = .fault f) : InstrAborts s (.sknp x) f := by
  rcases Nat.lt_or_ge 15 (s.reg x).toNat with habove | hkey
  · rw [exec_sknp_of_above habove] at e
    cases e
    exact .sknp x habove
  · rw [exec_sknp_of_key (k := ⟨_, Nat.lt_succ_of_le hkey⟩) rfl] at e
    cases e

theorem exec_ldF_fault (e : exec (.ldF x) s = .fault f) : InstrAborts s (.ldF x) f := by
  rcases Nat.lt_or_ge 15 (s.reg x).toNat with habove | hdigit
  · rw [exec_ldF_of_above habove] at e
    cases e
    exact .ldF x habove
  · rw [exec_ldF_of_digit hdigit] at e
    cases e

/-- `Fx0A` completes, with a key down or without (44_keyboard.md R150). -/
theorem exec_ldVxK_ne_fault : exec (.ldVxK x) s ≠ .fault f := by
  cases h : firstPressed s with
  | none => rw [exec_ldVxK_of_none h]; exact nofun
  | some k => rw [exec_ldVxK_of_some h]; exact nofun

/-- An instruction that aborts is one with an abort of its own, in the case listed for it. -/
theorem exec_fault {i : Instr} (e : exec i s = .fault f) : InstrAborts s i f := by
  cases i with
  | ret => exact exec_ret_fault e
  | call => exact exec_call_fault e
  | drw => exact exec_drw_fault e
  | skp => exact exec_skp_fault e
  | sknp => exact exec_sknp_fault e
  | ldVxK => exact absurd e exec_ldVxK_ne_fault
  | ldF => exact exec_ldF_fault e
  | ldB => exact exec_ldB_fault e
  | storeRegs => exact exec_storeRegs_fault e
  | loadRegs => exact exec_loadRegs_fault e
  | _ => cases e

end Meanings

/-- Settles O5, by the ways a step can go: the fetch, the decoder, or the abort of the instruction it decoded. -/
theorem everyAbortHasItsListedCause : Obligations.EveryAbortHasItsListedCause := by
  intro s f e
  rcases step_cases s with ⟨-, h⟩ | ⟨hrun, g, hfetch, h⟩ | ⟨hrun, w, hfetch, hdecode, h⟩ |
    ⟨hrun, w, i, hfetch, hdecode, h⟩
  · rw [h] at e
    cases e
  · rw [h] at e
    cases e
    obtain ⟨hout, rfl⟩ := fetch_fault hfetch
    exact ⟨hrun, .inl ⟨rfl, hout⟩⟩
  · rw [h] at e
    cases e
    exact ⟨hrun, rfl, hfetch, fun i hi => by rw [hdecode] at hi; cases hi⟩
  · have hdecodes : s.Decodes i := ⟨w, hfetch, hdecode⟩
    refine ⟨hrun, ?_⟩
    cases exec_fault (h ▸ e) with
    | ret hempty => exact ⟨hdecodes, hempty⟩
    | call nnn hfull => exact ⟨nnn, hdecodes, hfull, rfl⟩
    | drw x y n hpos hout => exact .inr ⟨rfl, .inl ⟨x, y, n, hdecodes, hpos, hout⟩⟩
    | ldB x hout => exact .inr ⟨rfl, .inr (.inl ⟨x, hdecodes, hout⟩)⟩
    | storeRegs x hout => exact .inr ⟨rfl, .inr (.inr ⟨x, .inl hdecodes, hout⟩)⟩
    | loadRegs x hout => exact .inr ⟨rfl, .inr (.inr ⟨x, .inr hdecodes, hout⟩)⟩
    | skp x habove => exact ⟨x, .inl hdecodes, rfl, habove⟩
    | sknp x habove => exact ⟨x, .inr hdecodes, rfl, habove⟩
    | ldF x habove => exact ⟨x, hdecodes, rfl, habove⟩

end Sys2Proof.Machine
end

section
/-! SUPPORT. The random source (60_exceptions.md R182; log 1): which instruction draws, and that neither a transaction
nor what an abort leaves takes a draw back. -/

namespace Sys2Proof.Machine

/-- No instruction but `Cxkk` draws. -/
theorem exec_draws_of_ne_rnd {i : Instr} {s t : State} (e : exec i s = .next t) (hi : ∀ x kk, i ≠ .rnd x kk) :
    t.draws = s.draws :=
  exec_changesOnly e .draws fun ⟨x, kk, h⟩ => hi x kk h

/-- `Cxkk` takes the draw that the counter names, and counts it (41_alu.md R111). -/
theorem exec_rnd_next {x : Reg} {kk : Byte} {s t : State} (e : exec (.rnd x kk) s = .next t) :
    t.reg x = Config.drawByte s.draws &&& kk ∧ t.draws = s.draws + 1 := by
  cases e
  exact ⟨setReg_reg_self _ x _, rfl⟩

theorem exec_draws_le {i : Instr} {s t : State} (e : exec i s = .next t) : s.draws ≤ t.draws := by
  by_cases hi : ∃ x kk, i = .rnd x kk
  · obtain ⟨x, kk, rfl⟩ := hi
    have hnext := (exec_rnd_next e).2
    omega
  · exact (exec_draws_of_ne_rnd e fun x kk h => hi ⟨x, kk, h⟩).ge

theorem step_draws_le {s t : State} (e : step s = .next t) : s.draws ≤ t.draws := by
  obtain ⟨w, i, -, -, -, hexec⟩ := step_next e
  exact (s.setPc_draws (s.pc + 2)).ge.trans (exec_draws_le hexec)

theorem frame_draws_le {n : Nat} {s t : State} (e : frame n s = .next t) : s.draws ≤ t.draws := by
  obtain ⟨u, hrun, rfl⟩ := frame_next e
  have hu : s.draws ≤ u.draws :=
    runSteps_induction (P := fun v => s.draws ≤ v.draws) (fun _ _ hv ih => ih.trans (step_draws_le hv)) hrun le_rfl
  exact hu

/-- What an aborting step leaves has the draws counted before it. -/
theorem leftByStep_draws (s : State) : (leftByStep s).draws = s.draws := by
  obtain ⟨p, m, v, e⟩ := leftByStep_rest s
  rw [e]
  rfl

theorem leftBySteps_draws_le (n : Nat) (s : State) : s.draws ≤ (leftBySteps n s).draws :=
  leftBySteps_induction (P := fun v => s.draws ≤ v.draws) (fun _ _ hv ih => ih.trans (step_draws_le hv))
    (fun v hv => hv.trans (leftByStep_draws v).ge) n le_rfl

/-- A `RESET` takes the draw counter as it finds it (log 1). -/
theorem resetRom_draws {c : Config} {rom : List Byte} {draws : Nat} {t : State}
    (e : resetRom c rom draws = .next t) : t.draws = draws := by
  by_cases h : rom.length ≤ maxRomLength c
  · rw [resetRom_of_fits h] at e
    cases e
    rfl
  · rw [resetRom_of_tooLong (Nat.lt_of_not_le h)] at e
    cases e

/-- What holds of a machine, of the state its transaction completes in and of the aborted one holds of what the latch
leaves. -/
theorem latch_keeps {P : State → Prop} {s left : State} {r : Result} (hs : P s)
    (hnext : ∀ t, r = .next t → P t) (hleft : P (left.setStatus .aborted)) : P (latch s left r).2 := by
  cases r with
  | next t => exact hnext t rfl
  | fault f => exact hleft
  | refused f => exact hs

theorem transact_reset_draws (c : Config) (rom : List Byte) (s : State) :
    (transact (.reset c rom) s).2.draws = s.draws :=
  latch_keeps (P := fun t => t.draws = s.draws) rfl (fun _ e => resetRom_draws e) rfl

/-- A transaction that only a running machine accepts leaves the draw counter where it does not write it. -/
theorem whenRunning_draws {s : State} {r : Reply × State} (hr : r.2.draws = s.draws) :
    (whenRunning s r).2.draws = s.draws :=
  whenRunning_keeps (P := fun t => t.draws = s.draws) rfl hr

/-- No transaction lowers the draw counter. -/
theorem transact_draws_le (tx : Transaction) (s : State) : s.draws ≤ (transact tx s).2.draws := by
  cases tx with
  | reset c rom => exact (transact_reset_draws c rom s).ge
  | step =>
    exact latch_keeps (P := fun t => s.draws ≤ t.draws) le_rfl (fun _ e => step_draws_le e) (leftByStep_draws s).ge
  | frame n =>
    exact latch_keeps (P := fun t => s.draws ≤ t.draws) le_rfl (fun _ e => frame_draws_le e)
      (leftBySteps_draws_le n s)
  | keySet | pixelRead | wave => exact whenRunning_keeps (P := fun t => s.draws ≤ t.draws) le_rfl le_rfl

/-- Settles O24: `mayWrite` lists `Cxkk` as the one writer of the counter, and it counts up. -/
theorem nothingReseedsTheRandomSource : Obligations.NothingReseedsTheRandomSource :=
  ⟨fun _ _ _ e hi => exec_draws_of_ne_rnd e hi, fun _ _ _ _ e => exec_rnd_next e,
    fun s c rom _ _ _ _ => ⟨transact_reset_draws c rom s, whenRunning_draws rfl, whenRunning_draws rfl,
      whenRunning_draws rfl⟩, transact_draws_le⟩

end Sys2Proof.Machine
end

section
/-! SUPPORT. The frame and the wave (60_exceptions.md R176 to R183): a frame by the outcome of its steps, the timer update
as numbers, and the batch of samples. -/

namespace Sys2Proof.Machine

variable {s : State}

/-! ## Frames -/

/-- A frame whose steps complete ends in the timer update (60_exceptions.md R183). -/
theorem frame_of_run {n : Nat} {u : State} (hrun : s.status = .running) (e : runSteps n s = .next u) :
    frame n s = .next (timerUpdate u) := by
  simp only [frame, hrun, e]

/-- A frame whose steps abort ends there (60_exceptions.md R169, R183). -/
theorem frame_of_fault {n : Nat} {f : Fault} (hrun : s.status = .running) (e : runSteps n s = .fault f) :
    frame n s = .fault f := by
  simp only [frame, hrun, e, abort_eq]

theorem timerUpdate_dt_toNat (s : State) : (timerUpdate s).dt.toNat = s.dt.toNat - 1 := countDown_toNat s.dt

/-- The sound counter follows the delay counter where it is tied to it (60_exceptions.md R177). -/
theorem timerUpdate_st_toNat (s : State) :
    (timerUpdate s).st.toNat = if s.config.soundTied then s.dt.toNat - 1 else s.st.toNat - 1 := by
  rw [timerUpdate, State.setSt_st, apply_ite BitVec.toNat, countDown_toNat, countDown_toNat]

/-- The timer update changes the two timers alone. -/
theorem timerUpdate_changesOnly (s : State) : ChangesOnly (among [.dt, .st]) s (timerUpdate s) :=
  (setDt_changesOnly s _ (by simp [among])).trans (setSt_changesOnly _ _ (by simp [among]))

/-- Settles O27: the frame is its run, then the timer update. -/
theorem frameRunsStepsThenOneTimerUpdate : Obligations.FrameRunsStepsThenOneTimerUpdate :=
  fun _ _ hrun => ⟨fun u e => ⟨timerUpdate u, frame_of_run hrun e, timerUpdate_dt_toNat u, timerUpdate_st_toNat u,
    timerUpdate_changesOnly u⟩, fun _ e => frame_of_fault hrun e⟩

/-! ## Waves -/

/-- Counting the phase is a change of the phase alone. -/
theorem setPhase_changesOnly_phase (s : State) (q : Nat) : ChangesOnly (among [.phase]) s (s.setPhase q) := by
  intro c hc
  cases c with
  | phase => exact absurd (List.mem_singleton.2 rfl) hc
  | _ => rfl

/-- A batch in closed form: the sample `k` at the count before its own advance (60_exceptions.md R179, R181). -/
theorem waveBatch_eq (s : State) :
    waveBatch s =
      ((List.range samplesPerWave).map (fun k => (k, if 0 < s.st.toNat then s.phase + k else s.phase)),
        s.setPhase (if 0 < s.st.toNat then s.phase + samplesPerWave else s.phase)) := by
  simp only [waveBatch, waveFrom_eq, decide_eq_true_eq, Nat.zero_add]

/-- Settles O28, by the closed form of the batch. -/
theorem waveEmitsThenAdvances : Obligations.WaveEmitsThenAdvances := by
  intro s
  refine ⟨?_, ?_, setPhase_changesOnly_phase s _, fun hrun => whenRunning_of_running hrun _⟩
  · rw [waveBatch_eq, samplesPerWave]
  · rw [waveBatch_eq, samplesPerWave, State.setPhase_phase]

end Sys2Proof.Machine
end

section
/-! SUPPORT. The terminal state (70_reset_and_hazards.md R201): the word of a jump to its own address, and the run that
stays there. -/

namespace Sys2Proof.Machine

variable {s : State}

/-- `0x1000 | a` is the encoding of a jump to the 12-bit address `a`. -/
theorem or_0x1000_eq_encode_jp {a : Word} (ha : a.toNat ≤ 0xFFF) : 0x1000 ||| a = encode (.jp (a.setWidth 12)) := by
  have hor : 0x1000 ||| a.toNat = 0x1000 + a.toNat := (Nat.two_pow_add_eq_or_of_lt (i := 12) (by omega) 1).symm
  refine BitVec.eq_of_toNat_eq ?_
  rw [encode, wordNNN_toNat, BitVec.toNat_or, BitVec.toNat_setWidth]
  change 0x1000 ||| a.toNat = 0x1000 * 1 + a.toNat % 0x1000
  omega

/-- Zero-extending the low 12 bits of an address below 0x1000 gives the address back. -/
theorem zextAddr_setWidth {a : Word} (ha : a.toNat ≤ 0xFFF) : zextAddr (a.setWidth 12) = a := by
  refine BitVec.eq_of_toNat_eq ?_
  rw [zextAddr_toNat, BitVec.toNat_setWidth]
  omega

/-- The jump of a terminal state takes back the fetch advance (40_flow.md R85). -/
theorem State.Terminal.step_eq (h : s.Terminal) : step s = .next s := by
  obtain ⟨hrun, hpc, hword⟩ := h
  have hdecode : decode (0x1000 ||| s.pc) = .ok (.jp (s.pc.setWidth 12)) := by
    rw [or_0x1000_eq_encode_jp hpc, decode_encode rfl]
  calc step s = exec (.jp (s.pc.setWidth 12)) (s.setPc (s.pc + 2)) := step_eq_exec hrun hword hdecode
    _ = .next (s.setPc (zextAddr (s.pc.setWidth 12))) := rfl
    _ = .next s := by rw [zextAddr_setWidth hpc]; rfl

/-- Steps from a state that a step leaves as it is end in that state. -/
theorem runSteps_of_step_eq_self (hstep : step s = .next s) (n : Nat) : runSteps n s = .next s := by
  induction n with
  | zero => rfl
  | succ n ih => simp only [runSteps_succ, hstep, ih]

/-- Settles O25: the step is the jump to where the machine is, so a frame is its timer update alone. -/
theorem selfJumpIsTerminal : Obligations.SelfJumpIsTerminal :=
  fun _ h => ⟨h.step_eq, fun n => frame_of_run h.1 (runSteps_of_step_eq_self h.step_eq n)⟩

end Sys2Proof.Machine
end
